-- ==== Sys2Proof/Word.lean ====
section
/-! DEFINITION. The word types of the machine: every value is unsigned and has a stated width
(00_scope.md R6). -/

namespace Sys2Proof

/-- A register, a timer, a cell of memory, an immediate `nn` (00_scope.md R5). -/
abbrev Byte := BitVec 8

/-- An opcode, `I`, `pc`, an entry of the stack (00_scope.md R5). -/
abbrev Word := BitVec 16

/-- A 12-bit absolute address `nnn` (30_encoding.md R92). -/
abbrev Addr12 := BitVec 12

/-- A register index, 0x0 to 0xF (10_state.md R20). -/
abbrev RegIdx := Fin 16

/-- A key code, 0x0 to 0xF (10_state.md R33). -/
abbrev KeyCode := Fin 16

/-- A sprite height in rows, 0 to 15 (30_encoding.md R92). -/
abbrev RowCount := Fin 16

end Sys2Proof
end

