-- ==== Sys2Proof/Syntax.lean ====
section
/-! DEFINITION. The instructions as syntax: one constructor per row of spec/opcode_table.json, in the order
of 30_encoding.md R94. Operands have the types of R92, so no operand out of its range can be written. -/

namespace Sys2Proof

/-- The 34 instructions (30_encoding.md R94). The comment beside a constructor is its pattern. -/
inductive Instr where
  | cls                                  -- 00E0
  | ret                                  -- 00EE
  | jp (nnn : Addr12)                    -- 1nnn
  | call (nnn : Addr12)                  -- 2nnn
  | seImm (x : RegIdx) (nn : Byte)       -- 3xnn
  | sneImm (x : RegIdx) (nn : Byte)      -- 4xnn
  | seReg (x y : RegIdx)                 -- 5xy0
  | sneReg (x y : RegIdx)                -- 9xy0
  | ldImm (x : RegIdx) (nn : Byte)       -- 6xnn
  | addImm (x : RegIdx) (nn : Byte)      -- 7xnn
  | ldReg (x y : RegIdx)                 -- 8xy0
  | orReg (x y : RegIdx)                 -- 8xy1
  | andReg (x y : RegIdx)                -- 8xy2
  | xorReg (x y : RegIdx)                -- 8xy3
  | addReg (x y : RegIdx)                -- 8xy4
  | subReg (x y : RegIdx)                -- 8xy5
  | shr (x y : RegIdx)                   -- 8xy6, y encoded and not used
  | subn (x y : RegIdx)                  -- 8xy7
  | shl (x y : RegIdx)                   -- 8xyE, y encoded and not used
  | ldI (nnn : Addr12)                   -- Annn
  | jpV0 (nnn : Addr12)                  -- Bnnn
  | rnd (x : RegIdx) (nn : Byte)         -- Cxnn
  | drw (x y : RegIdx) (n : RowCount)    -- Dxyn
  | skp (x : RegIdx)                     -- Ex9E
  | sknp (x : RegIdx)                    -- ExA1
  | ldFromDT (x : RegIdx)                -- Fx07
  | ldKey (x : RegIdx)                   -- Fx0A
  | ldToDT (x : RegIdx)                  -- Fx15
  | ldToST (x : RegIdx)                  -- Fx18
  | addI (x : RegIdx)                    -- Fx1E
  | ldF (x : RegIdx)                     -- Fx29
  | ldB (x : RegIdx)                     -- Fx33
  | storeRegs (x : RegIdx)               -- Fx55
  | loadRegs (x : RegIdx)                -- Fx65
  deriving DecidableEq, Repr

end Sys2Proof
end

