-- ==== Sys2Proof/Config.lean ====
section
/-! DEFINITION. What is fixed for this machine (00_scope.md R5), the two open parameters it takes at a
value (FONT, SHIFT_USES_VY), and the one free value (the bytes of `Rand()`). -/

namespace Sys2Proof.Config

/-- MEM_SIZE, the number of cells (00_scope.md R5). -/
def memSize : Nat := 4096

/-- PROG_BASE: where `load` puts a program and where `pc` starts (00_scope.md R5). -/
def progBase : Nat := 0x200

/-- ROM_MAX, the longest program that loads (00_scope.md R5). -/
def romMax : Nat := memSize - progBase

/-- FONT_BASE is 0 and a glyph has GLYPH_BYTES bytes (00_scope.md R5). -/
def glyphBytes : Nat := 5

/-- The length of FONT in bytes: 16 glyphs (43_index_memory.md R157). -/
def fontLength : Nat := 80

/-- FONT at the default the spec gives it (43_index_memory.md R157). DESIGN CHOICE: the parameter is
open and this model takes the default; log 1. -/
def font : List Byte :=
  [0xF0, 0x90, 0x90, 0x90, 0xF0, 0x20, 0x60, 0x20, 0x20, 0x70,
   0xF0, 0x10, 0xF0, 0x80, 0xF0, 0xF0, 0x10, 0xF0, 0x10, 0xF0,
   0x90, 0x90, 0xF0, 0x10, 0x10, 0xF0, 0x80, 0xF0, 0x10, 0xF0,
   0xF0, 0x80, 0xF0, 0x90, 0xF0, 0xF0, 0x10, 0x20, 0x40, 0x40] ++
  [0xF0, 0x90, 0xF0, 0x90, 0xF0, 0xF0, 0x90, 0xF0, 0x10, 0xF0,
   0xF0, 0x90, 0xF0, 0x90, 0x90, 0xE0, 0x90, 0xE0, 0x90, 0xE0,
   0xF0, 0x80, 0x80, 0x80, 0xF0, 0xE0, 0x90, 0x90, 0x90, 0xE0,
   0xF0, 0x80, 0xF0, 0x80, 0xF0, 0xF0, 0x80, 0xF0, 0x80, 0x80]

/-- SHIFT_USES_VY: false for this hardware, the shifts work on Vx in place (00_scope.md R5,
92_eei_decisions.md D9). DESIGN CHOICE of the spec; log 3. -/
def shiftUsesVy : Bool := false

/-- RAND_SEQ: the byte the k-th draw of `Rand()` returns, about which nothing is known
(42_alu.md R144). A free value: it has no body, so no proof can use a value of it. DESIGN CHOICE
that the draws are numbered; log 2. -/
opaque randSeq : Nat → Byte

end Sys2Proof.Config
end

