-- ==== Sys2Proof/WellFormed.lean ====
section
/-! DEFINITION. Well-formedness. The operands of an `Instr` are in range by their types; the checks here are on
RAW operands, numbers as an assembler or a test reads them, before they become an instruction
(30_encoding.md R92), and on the length of a program (46_host_interface.md R182). -/

namespace Sys2Proof

/-- The raw operands of one instruction, as plain numbers; an operand the instruction does not have is 0. -/
structure RawOperands where
  x : Nat := 0
  y : Nat := 0
  n : Nat := 0
  nn : Nat := 0
  nnn : Nat := 0
  deriving DecidableEq, Repr

/-- A register index is a 4-bit number (30_encoding.md R92). -/
def regInRange (r : Nat) : Bool := decide (r < 16)

/-- A sprite height is a 4-bit number (30_encoding.md R92). -/
def rowsInRange (n : Nat) : Bool := decide (n < 16)

/-- An immediate is an 8-bit number (30_encoding.md R92). -/
def immInRange (nn : Nat) : Bool := decide (nn < 256)

/-- An address operand is a 12-bit number (30_encoding.md R92). -/
def addrInRange (nnn : Nat) : Bool := decide (nnn < 4096)

/-- All five operands are in range. -/
def RawOperands.wellFormed (o : RawOperands) : Bool :=
  regInRange o.x && regInRange o.y && rowsInRange o.n && immInRange o.nn && addrInRange o.nnn

/-- The operands of an instruction as plain numbers. -/
def Instr.rawOperands : Instr → RawOperands
  | .cls | .ret => {}
  | .jp nnn | .call nnn | .ldI nnn | .jpV0 nnn => { nnn := nnn.toNat }
  | .seImm x nn | .sneImm x nn | .ldImm x nn | .addImm x nn | .rnd x nn => { x := x, nn := nn.toNat }
  | .seReg x y | .sneReg x y | .ldReg x y | .orReg x y | .andReg x y | .xorReg x y | .addReg x y
  | .subReg x y | .shr x y | .subn x y | .shl x y => { x := x, y := y }
  | .drw x y n => { x := x, y := y, n := n }
  | .skp x | .sknp x | .ldFromDT x | .ldKey x | .ldToDT x | .ldToST x | .addI x | .ldF x | .ldB x
  | .storeRegs x | .loadRegs x => { x := x }

/-- An instruction is well formed: its operands are in the ranges of 30_encoding.md R92. Every value is
legal there, so this holds of every `Instr` (Laws/PerInstr.lean). -/
def Instr.wellFormed (i : Instr) : Bool := i.rawOperands.wellFormed

/-- A program fits into memory (46_host_interface.md R182). -/
def romFits (bytes : List Byte) : Bool := decide (bytes.length ≤ Config.romMax)

end Sys2Proof
end

