-- ==== Sys2Proof/Decode.lean ====
section
/-! DEFINITION. The decoder (30_encoding.md R91, R94, R101), total on all words and on any bytes, rejecting by
name; then the encoder, written from the formats of R91; then the opcode table of R94 as rows of mask and
match. -/

namespace Sys2Proof

/-- Why a word is no instruction: the six classes of 30_encoding.md R95, with the word. Such a word is no
error, it executes as a no-op (40_execution_cycle.md R113). -/
inductive Unassigned where
  | class0 (w : Word)
  | class5 (w : Word)
  | class8 (w : Word)
  | class9 (w : Word)
  | classE (w : Word)
  | classF (w : Word)
  deriving DecidableEq, Repr

/-- What a 16-bit word decodes to. -/
inductive Decoded where
  | instr (i : Instr)
  | unassigned (u : Unassigned)
  deriving DecidableEq, Repr

/-- What a sequence of bytes decodes to: an instruction and the bytes after it, a word that is no
instruction, or fewer than two bytes. -/
inductive DecodeResult where
  | ok (i : Instr) (rest : List Byte)
  | unassigned (u : Unassigned)
  | truncated
  deriving DecidableEq, Repr

/-- The class nibble, `op[15:12]` (30_encoding.md R91). -/
def opClass (w : Word) : Nat := (w.extractLsb' 12 4).toNat

/-- `x = op[11:8]` (00_scope.md R7). -/
def fieldX (w : Word) : RegIdx := (w.extractLsb' 8 4).toFin

/-- `y = op[7:4]` (00_scope.md R7). -/
def fieldY (w : Word) : RegIdx := (w.extractLsb' 4 4).toFin

/-- `n = op[3:0]` (00_scope.md R7). -/
def fieldN (w : Word) : RowCount := (w.extractLsb' 0 4).toFin

/-- `nn = op[7:0]` (00_scope.md R7). -/
def fieldNN (w : Word) : Byte := w.extractLsb' 0 8

/-- `nnn = op[11:0]` (00_scope.md R7). -/
def fieldNNN (w : Word) : Addr12 := w.extractLsb' 0 12

/-- The first byte in memory is the high byte of the word (20_memory.md R64). -/
def joinBytes (hi lo : Byte) : Word := hi ++ lo

/-- The byte of a word at the lower address. -/
def highByte (w : Word) : Byte := w.extractLsb' 8 8

/-- The byte of a word at the higher address. -/
def lowByte (w : Word) : Byte := w.extractLsb' 0 8

/-- Class 0 (30_encoding.md R101). -/
def decodeClass0 (w : Word) : Decoded :=
  if w = 0x00E0#16 then .instr .cls
  else if w = 0x00EE#16 then .instr .ret
  else .unassigned (.class0 w)

/-- Class 8, by the fourth nibble (30_encoding.md R101). -/
def decodeClass8 (w : Word) : Decoded :=
  match (fieldN w).val with
  | 0x0 => .instr (.ldReg (fieldX w) (fieldY w))
  | 0x1 => .instr (.orReg (fieldX w) (fieldY w))
  | 0x2 => .instr (.andReg (fieldX w) (fieldY w))
  | 0x3 => .instr (.xorReg (fieldX w) (fieldY w))
  | 0x4 => .instr (.addReg (fieldX w) (fieldY w))
  | 0x5 => .instr (.subReg (fieldX w) (fieldY w))
  | 0x6 => .instr (.shr (fieldX w) (fieldY w))
  | 0x7 => .instr (.subn (fieldX w) (fieldY w))
  | 0xE => .instr (.shl (fieldX w) (fieldY w))
  | _ => .unassigned (.class8 w)

/-- Class E, by the low byte (30_encoding.md R101). -/
def decodeClassE (w : Word) : Decoded :=
  match (fieldNN w).toNat with
  | 0x9E => .instr (.skp (fieldX w))
  | 0xA1 => .instr (.sknp (fieldX w))
  | _ => .unassigned (.classE w)

/-- Class F, by the low byte (30_encoding.md R101). -/
def decodeClassF (w : Word) : Decoded :=
  match (fieldNN w).toNat with
  | 0x07 => .instr (.ldFromDT (fieldX w))
  | 0x0A => .instr (.ldKey (fieldX w))
  | 0x15 => .instr (.ldToDT (fieldX w))
  | 0x18 => .instr (.ldToST (fieldX w))
  | 0x1E => .instr (.addI (fieldX w))
  | 0x29 => .instr (.ldF (fieldX w))
  | 0x33 => .instr (.ldB (fieldX w))
  | 0x55 => .instr (.storeRegs (fieldX w))
  | 0x65 => .instr (.loadRegs (fieldX w))
  | _ => .unassigned (.classF w)

/-- The decoder of 30_encoding.md R101, total on all 65536 words. The last class, F, is what is left of a
4-bit class. -/
def decodeWord (w : Word) : Decoded :=
  match opClass w with
  | 0x0 => decodeClass0 w
  | 0x1 => .instr (.jp (fieldNNN w))
  | 0x2 => .instr (.call (fieldNNN w))
  | 0x3 => .instr (.seImm (fieldX w) (fieldNN w))
  | 0x4 => .instr (.sneImm (fieldX w) (fieldNN w))
  | 0x5 => if (fieldN w).val = 0 then .instr (.seReg (fieldX w) (fieldY w)) else .unassigned (.class5 w)
  | 0x6 => .instr (.ldImm (fieldX w) (fieldNN w))
  | 0x7 => .instr (.addImm (fieldX w) (fieldNN w))
  | 0x8 => decodeClass8 w
  | 0x9 => if (fieldN w).val = 0 then .instr (.sneReg (fieldX w) (fieldY w)) else .unassigned (.class9 w)
  | 0xA => .instr (.ldI (fieldNNN w))
  | 0xB => .instr (.jpV0 (fieldNNN w))
  | 0xC => .instr (.rnd (fieldX w) (fieldNN w))
  | 0xD => .instr (.drw (fieldX w) (fieldY w) (fieldN w))
  | 0xE => decodeClassE w
  | _ => decodeClassF w

/-- Decoding bytes: an instruction is two bytes, the high byte first (30_encoding.md R90). -/
def decode : List Byte → DecodeResult
  | hi :: lo :: rest =>
    match decodeWord (joinBytes hi lo) with
    | .instr i => .ok i rest
    | .unassigned u => .unassigned u
  | [_] => .truncated
  | [] => .truncated

/-- A 4-bit register index, key code or count as the bits of a word. -/
def nibble (k : Fin 16) : BitVec 4 := BitVec.ofFin k

/-- Format NNN (30_encoding.md R91): class, then the 12-bit address. -/
def formatNNN (c : BitVec 4) (nnn : Addr12) : Word := c ++ nnn

/-- Format XNN (30_encoding.md R91): class, x, 8-bit immediate or function. Format X has the same shape,
its low byte being the function. -/
def formatXNN (c : BitVec 4) (x : RegIdx) (nn : Byte) : Word := c ++ nibble x ++ nn

/-- Formats XY and XYN (30_encoding.md R91): class, x, y, function or count. -/
def formatXYN (c : BitVec 4) (x y : RegIdx) (n : BitVec 4) : Word := c ++ nibble x ++ nibble y ++ n

/-- The word of an instruction, from the pattern column of 30_encoding.md R94. -/
def encodeWord : Instr → Word
  | .cls => 0x00E0
  | .ret => 0x00EE
  | .jp nnn => formatNNN 0x1 nnn
  | .call nnn => formatNNN 0x2 nnn
  | .seImm x nn => formatXNN 0x3 x nn
  | .sneImm x nn => formatXNN 0x4 x nn
  | .seReg x y => formatXYN 0x5 x y 0x0
  | .sneReg x y => formatXYN 0x9 x y 0x0
  | .ldImm x nn => formatXNN 0x6 x nn
  | .addImm x nn => formatXNN 0x7 x nn
  | .ldReg x y => formatXYN 0x8 x y 0x0
  | .orReg x y => formatXYN 0x8 x y 0x1
  | .andReg x y => formatXYN 0x8 x y 0x2
  | .xorReg x y => formatXYN 0x8 x y 0x3
  | .addReg x y => formatXYN 0x8 x y 0x4
  | .subReg x y => formatXYN 0x8 x y 0x5
  | .shr x y => formatXYN 0x8 x y 0x6
  | .subn x y => formatXYN 0x8 x y 0x7
  | .shl x y => formatXYN 0x8 x y 0xE
  | .ldI nnn => formatNNN 0xA nnn
  | .jpV0 nnn => formatNNN 0xB nnn
  | .rnd x nn => formatXNN 0xC x nn
  | .drw x y n => formatXYN 0xD x y (nibble n)
  | .skp x => formatXNN 0xE x 0x9E
  | .sknp x => formatXNN 0xE x 0xA1
  | .ldFromDT x => formatXNN 0xF x 0x07
  | .ldKey x => formatXNN 0xF x 0x0A
  | .ldToDT x => formatXNN 0xF x 0x15
  | .ldToST x => formatXNN 0xF x 0x18
  | .addI x => formatXNN 0xF x 0x1E
  | .ldF x => formatXNN 0xF x 0x29
  | .ldB x => formatXNN 0xF x 0x33
  | .storeRegs x => formatXNN 0xF x 0x55
  | .loadRegs x => formatXNN 0xF x 0x65

/-- The two bytes of an instruction as memory holds them, the high byte first (30_encoding.md R90). -/
def encode (i : Instr) : List Byte := [highByte (encodeWord i), lowByte (encodeWord i)]

/-- One row of the opcode table: a word `w` is the instruction if and only if `w AND mask = pattern`
(30_encoding.md R94, where the second number is called match). -/
structure OpcodeRow where
  mask : Word
  pattern : Word
  deriving DecidableEq, Repr

/-- The row of 30_encoding.md R94 an instruction belongs to. -/
def opcodeRow : Instr → OpcodeRow
  | .cls => ⟨0xFFFF, 0x00E0⟩
  | .ret => ⟨0xFFFF, 0x00EE⟩
  | .jp _ => ⟨0xF000, 0x1000⟩
  | .call _ => ⟨0xF000, 0x2000⟩
  | .seImm _ _ => ⟨0xF000, 0x3000⟩
  | .sneImm _ _ => ⟨0xF000, 0x4000⟩
  | .seReg _ _ => ⟨0xF00F, 0x5000⟩
  | .sneReg _ _ => ⟨0xF00F, 0x9000⟩
  | .ldImm _ _ => ⟨0xF000, 0x6000⟩
  | .addImm _ _ => ⟨0xF000, 0x7000⟩
  | .ldReg _ _ => ⟨0xF00F, 0x8000⟩
  | .orReg _ _ => ⟨0xF00F, 0x8001⟩
  | .andReg _ _ => ⟨0xF00F, 0x8002⟩
  | .xorReg _ _ => ⟨0xF00F, 0x8003⟩
  | .addReg _ _ => ⟨0xF00F, 0x8004⟩
  | .subReg _ _ => ⟨0xF00F, 0x8005⟩
  | .shr _ _ => ⟨0xF00F, 0x8006⟩
  | .subn _ _ => ⟨0xF00F, 0x8007⟩
  | .shl _ _ => ⟨0xF00F, 0x800E⟩
  | .ldI _ => ⟨0xF000, 0xA000⟩
  | .jpV0 _ => ⟨0xF000, 0xB000⟩
  | .rnd _ _ => ⟨0xF000, 0xC000⟩
  | .drw _ _ _ => ⟨0xF000, 0xD000⟩
  | .skp _ => ⟨0xF0FF, 0xE09E⟩
  | .sknp _ => ⟨0xF0FF, 0xE0A1⟩
  | .ldFromDT _ => ⟨0xF0FF, 0xF007⟩
  | .ldKey _ => ⟨0xF0FF, 0xF00A⟩
  | .ldToDT _ => ⟨0xF0FF, 0xF015⟩
  | .ldToST _ => ⟨0xF0FF, 0xF018⟩
  | .addI _ => ⟨0xF0FF, 0xF01E⟩
  | .ldF _ => ⟨0xF0FF, 0xF029⟩
  | .ldB _ => ⟨0xF0FF, 0xF033⟩
  | .storeRegs _ => ⟨0xF0FF, 0xF055⟩
  | .loadRegs _ => ⟨0xF0FF, 0xF065⟩

/-- The whole table of 30_encoding.md R94, in its order. -/
def opcodeRows : List OpcodeRow :=
  [⟨0xFFFF, 0x00E0⟩, ⟨0xFFFF, 0x00EE⟩, ⟨0xF000, 0x1000⟩, ⟨0xF000, 0x2000⟩, ⟨0xF000, 0x3000⟩,
   ⟨0xF000, 0x4000⟩, ⟨0xF00F, 0x5000⟩, ⟨0xF00F, 0x9000⟩, ⟨0xF000, 0x6000⟩, ⟨0xF000, 0x7000⟩,
   ⟨0xF00F, 0x8000⟩, ⟨0xF00F, 0x8001⟩, ⟨0xF00F, 0x8002⟩, ⟨0xF00F, 0x8003⟩, ⟨0xF00F, 0x8004⟩,
   ⟨0xF00F, 0x8005⟩, ⟨0xF00F, 0x8006⟩] ++
  [⟨0xF00F, 0x8007⟩, ⟨0xF00F, 0x800E⟩, ⟨0xF000, 0xA000⟩, ⟨0xF000, 0xB000⟩, ⟨0xF000, 0xC000⟩,
   ⟨0xF000, 0xD000⟩, ⟨0xF0FF, 0xE09E⟩, ⟨0xF0FF, 0xE0A1⟩, ⟨0xF0FF, 0xF007⟩, ⟨0xF0FF, 0xF00A⟩,
   ⟨0xF0FF, 0xF015⟩, ⟨0xF0FF, 0xF018⟩, ⟨0xF0FF, 0xF01E⟩, ⟨0xF0FF, 0xF029⟩, ⟨0xF0FF, 0xF033⟩,
   ⟨0xF0FF, 0xF055⟩, ⟨0xF0FF, 0xF065⟩]

/-- A word matches a row (30_encoding.md R94). -/
def OpcodeRow.matchesWord (r : OpcodeRow) (w : Word) : Bool := (w &&& r.mask) == r.pattern

/-- The low `nbits` bits of `w` as an instruction word; no instruction is longer than 16 bits
(30_encoding.md R90), so a longer request has no word. -/
def tableWord (nbits w : Nat) : Option Word :=
  if nbits ≤ 16 then some (BitVec.ofNat 16 (w % 2 ^ nbits)) else none

/-- The instruction the decoder reads from the bytes of a word numbered as spec/opcode_table.json numbers it:
the word is laid out in memory order, the high byte first, and decoded. -/
def decodeTableWord (nbits w : Nat) : Option Instr :=
  match tableWord nbits w with
  | none => none
  | some word =>
    match decode [highByte word, lowByte word] with
    | .ok i _ => some i
    | .unassigned _ => none
    | .truncated => none

end Sys2Proof
end

