-- ==== Sys2Proof/Machine/State.lean ====
section
/-! DEFINITION. The state of the machine (10_state.md R41), the reasons a step can stop, and the state after
reset (70_reset_and_hazards.md R230). -/

namespace Sys2Proof.Machine

/-- The fault causes of 60_exceptions.md R200. They are the CAUSES of the fault register: an instruction that
raises one goes on to a NEXT state with the fault register written (R209), and no step of this model ever
answers `Host.Outcome.fault` (log 4: safe, the sticky record is the report). -/
inductive Fault where
  /-- Code 1. Raised by 2nnn when 16 calls are outstanding (60_exceptions.md R201). Safe: the spec's own. -/
  | stackOverflow
  /-- Code 2. Raised by 00EE when no call is outstanding (60_exceptions.md R202). Safe: the spec's own. -/
  | stackUnderflow
  /-- Code 3. Raised by a fetch, Dxyn, Fx33, Fx55 or Fx65 whose address range goes above 0xFFF
  (60_exceptions.md R203). Safe: the spec's own. -/
  | addressOutOfRange
  deriving DecidableEq, Repr

/-- Why an instruction has no meaning in this model. Every instruction has one, so nothing raises it. -/
inductive Refusal where
  /-- Would be raised by an arm of `exec` without a meaning; there is none. Safe: it would stop. -/
  | notModelled (mnemonic : String)
  deriving DecidableEq, Repr

/-- The fault record (60_exceptions.md R209; widths in 10_state.md R40). -/
structure FaultRecord where
  cause : Fault
  epc : Word
  opcode : Word
  addr : Word
  deriving DecidableEq, Repr

/-- Memory as plain data: the bytes that differ from their reset contents, by rising address. -/
abbrev Memory := List Host.Cell

/-- The framebuffer: 32 rows of 64 pixels, bit `px` of a row being the pixel of column `px`
(10_state.md R31; the bit order inside a row is the model's, DESIGN CHOICE, log 7). -/
abbrev Framebuffer := Vector (BitVec 64) 32

/-- The complete state vector of 10_state.md R41, and the model's own counter of random draws. -/
structure State where
  /-- The registers V0 to VF (10_state.md R20). -/
  V : Vector Byte 16
  /-- The index register (10_state.md R24). -/
  I : Word
  /-- The program counter (10_state.md R25). -/
  pc : Word
  /-- The return addresses (10_state.md R27). -/
  stack : Vector Word 16
  /-- The depth of the stack, 0 to 16 (10_state.md R28; log 6). -/
  sp : Fin 17
  /-- The delay timer (10_state.md R29). -/
  DT : Byte
  /-- The sound timer (10_state.md R30). -/
  ST : Byte
  /-- The framebuffer (10_state.md R31). -/
  fb : Framebuffer
  /-- The dirty flag (10_state.md R32). -/
  dirty : Bool
  /-- The keypad, bit k for key k (10_state.md R33). -/
  key : BitVec 16
  /-- The wait-for-key state (10_state.md R34). -/
  wait : Option RegIdx
  /-- The fault register (10_state.md R35). -/
  fault : Option FaultRecord
  /-- The memory (10_state.md R38). -/
  mem : Memory
  /-- MODEL'S OWN: how many bytes `Rand()` has returned (42_alu.md R144; log 2). -/
  draws : Nat
  deriving DecidableEq, Repr

/-- The machine right after reset (70_reset_and_hazards.md R230). Memory lists nothing: every byte holds its
reset contents. `draws` is no state of the spec; its 0 is a DESIGN CHOICE (log 2). -/
def State.reset : State where
  V := Vector.replicate 16 0
  I := 0
  pc := 0x0200
  stack := Vector.replicate 16 0
  sp := 0
  DT := 0
  ST := 0
  fb := Vector.replicate 32 0
  dirty := false
  key := 0
  wait := none
  fault := none
  mem := []
  draws := 0

end Sys2Proof.Machine
end

