-- ==== Sys2Proof/Machine/Ops.lean ====
section
/-! DEFINITION. The named operations over registers, memory, stack and pixels, the range check, and taking a
fault. -/

namespace Sys2Proof.Machine

/-! ### Memory (20_memory.md) -/

/-- What an address that is not listed reads as: the reset contents, FONT in 0x000 to 0x04F and 0 elsewhere
(10_state.md R38). -/
def Memory.unlisted (a : Nat) : Byte :=
  if a < Config.fontLength then Config.font.getD a 0 else 0

/-- The byte at an address (00_scope.md R9); the meanings ask only for addresses they have checked. -/
def Memory.read : Memory → Nat → Byte
  | [], a => Memory.unlisted a
  | (b, v) :: m, a => if a = b then v else Memory.read m a

/-- Put a byte into the canonical list: it replaces the entry of its address, and leaves no entry when it is
what the address reads as unlisted. -/
def Memory.put : Memory → Nat → Byte → Memory
  | [], a, v => if v = Memory.unlisted a then [] else [(a, v)]
  | (b, w) :: m, a, v =>
    if a < b then (if v = Memory.unlisted a then (b, w) :: m else (a, v) :: (b, w) :: m)
    else if a = b then (if v = Memory.unlisted a then m else (a, v) :: m)
    else (b, w) :: Memory.put m a v

/-- Write a byte (00_scope.md R9). No cell exists above 0xFFF (20_memory.md R62), and no meaning writes one:
the check comes first. -/
def Memory.write (m : Memory) (a : Nat) (v : Byte) : Memory :=
  if a < Config.memSize then Memory.put m a v else m

/-- Write bytes to ascending addresses (20_memory.md R64). -/
def Memory.writeBytes : Memory → Nat → List Byte → Memory
  | m, _, [] => m
  | m, a, v :: vs => Memory.writeBytes (Memory.write m a v) (a + 1) vs

/-- Read `n` bytes from ascending addresses (20_memory.md R64). -/
def Memory.readBytes (m : Memory) : Nat → Nat → List Byte
  | _, 0 => []
  | a, n + 1 => Memory.read m a :: Memory.readBytes m (a + 1) n

/-- The addresses rise strictly, from a lower bound. -/
def Memory.rising : Nat → Memory → Bool
  | _, [] => true
  | lo, (a, _) :: m => decide (lo ≤ a) && Memory.rising (a + 1) m

/-- The canonical form: strictly rising addresses, each of an existing cell, no entry equal to what its
address reads as unlisted. -/
def Memory.wf (m : Memory) : Bool :=
  Memory.rising 0 m && m.all fun c => decide (c.1 < Config.memSize) && !(c.2 == Memory.unlisted c.1)

/-- The range check of 20_memory.md R63 on the `len` bytes from `lo`: the lowest invalid address,
`max(lo, 0x1000)`, if some byte of the range lies above 0xFFF. An empty range is valid. -/
def badAddress (lo len : Nat) : Option Word :=
  if 0 < len ∧ 0xFFF < lo + len - 1 then some (BitVec.ofNat 16 (max lo 0x1000)) else none

/-! ### Registers -/

/-- Read a register (10_state.md R20): no register is hardwired. -/
def State.readReg (s : State) (x : RegIdx) : Byte := s.V[x.val]

/-- Write a register. -/
def State.writeReg (s : State) (x : RegIdx) (b : Byte) : State := { s with V := s.V.set x.val b }

/-- Write consecutive registers from index `k` on, ascending (43_index_memory.md R156). -/
def State.writeRegsFrom : Nat → List Byte → State → State
  | _, [], s => s
  | k, b :: bs, s =>
    if h : k < 16 then State.writeRegsFrom (k + 1) bs (s.writeReg ⟨k, h⟩ b) else s

/-- The registers V0 to Vx, in order (43_index_memory.md R155). -/
def State.regsUpTo (s : State) (x : RegIdx) : List Byte := s.V.toList.take (x.val + 1)

/-- `pc <- target` (00_scope.md R9). -/
def State.setPc (s : State) (target : Word) : State := { s with pc := target }

/-- The pre-advance of 40_execution_cycle.md R112: `pc <- (pc + 2) mod 65536`. -/
def State.preAdvance (s : State) : State := { s with pc := s.pc + 2 }

/-- A conditional `skip` (00_scope.md R9): 2 more for `pc` when the condition holds. -/
def State.skipIf (s : State) (c : Bool) : State := if c then { s with pc := s.pc + 2 } else s

/-- Write the index register. -/
def State.setI (s : State) (w : Word) : State := { s with I := w }

/-- Write the delay timer. -/
def State.setDT (s : State) (b : Byte) : State := { s with DT := b }

/-- Write the sound timer. -/
def State.setST (s : State) (b : Byte) : State := { s with ST := b }

/-- Write the wait-for-key state. -/
def State.setWait (s : State) (w : Option RegIdx) : State := { s with wait := w }

/-- Write the keypad state. -/
def State.setKey (s : State) (k : BitVec 16) : State := { s with key := k }

/-- Write the memory. -/
def State.setMem (s : State) (m : Memory) : State := { s with mem := m }

/-- Write the framebuffer and set `dirty` (10_state.md R32: the two go together in an instruction). -/
def State.setScreen (s : State) (f : Framebuffer) : State := { s with fb := f, dirty := true }

/-- Clear `dirty` (46_host_interface.md R188). -/
def State.undirty (s : State) : State := { s with dirty := false }

/-- Count one draw of `Rand()` (42_alu.md R143). -/
def State.countDraw (s : State) : State := { s with draws := s.draws + 1 }

/-! ### The call stack (10_state.md R27, R28) -/

/-- Push a return address: `stack[sp] <- w; sp <- sp + 1`, allowed only when `sp < 16`. -/
def State.push (s : State) (w : Word) : Option State :=
  if h : s.sp.val < 16 then
    some { s with stack := s.stack.set s.sp.val w h, sp := ⟨s.sp.val + 1, by omega⟩ }
  else none

/-- Pop a return address: `sp <- sp - 1`, the entry read is `stack[sp]` and keeps its value; allowed only
when `sp > 0`. -/
def State.pop (s : State) : Option (Word × State) :=
  match s.sp with
  | ⟨0, _⟩ => none
  | ⟨d + 1, h⟩ => some (s.stack[d], { s with sp := ⟨d, by omega⟩ })

/-! ### Pixels (10_state.md R31) -/

/-- The pixel of row `py` and column `px`. -/
def Framebuffer.pixel (f : Framebuffer) (py : Fin 32) (px : Fin 64) : Bool := f[py.val].getLsbD px.val

/-- `fb[py][px] <- fb[py][px] XOR 1`. -/
def Framebuffer.toggle (f : Framebuffer) (py : Fin 32) (px : Fin 64) : Framebuffer :=
  f.set py.val (f[py.val] ^^^ (1#64 <<< px.val))

/-- The clear framebuffer. -/
def Framebuffer.clear : Framebuffer := Vector.replicate 32 0

/-! ### Taking a fault, and leaving it (60_exceptions.md R209 to R211) -/

/-- Fault entry (60_exceptions.md R209): the record goes to the fault register and nothing else changes; no
handler is entered. -/
def State.takeFault (s : State) (c : Fault) (epc opcode addr : Word) : State :=
  { s with fault := some { cause := c, epc := epc, opcode := opcode, addr := addr } }

/-- A fault raised by an instruction that executes: `pc` has been advanced past it, so its address is
`pc - 2` modulo 65536, and its opcode is its word (60_exceptions.md R203, R210; log 9). -/
def State.raiseIn (s : State) (c : Fault) (i : Instr) (addr : Word) : State :=
  s.takeFault c (s.pc - 2) (encodeWord i) addr

/-- There is no return from a fault but reset (60_exceptions.md R211). Reset does not touch the random
source (70_reset_and_hazards.md R230), so the count of draws goes on (log 2). -/
def State.resetFrom (s : State) : State := { State.reset with draws := s.draws }

/-- The mode (10_state.md R37). -/
inductive Mode where
  | running
  | waitingForKey (r : RegIdx)
  | faulted (c : Fault)
  deriving DecidableEq, Repr

/-- The mode is a function of `wait` and `fault` and no state of its own (10_state.md R37). -/
def State.mode (s : State) : Mode :=
  match s.fault, s.wait with
  | some r, _ => .faulted r.cause
  | none, some x => .waitingForKey x
  | none, none => .running

/-- The number of a cause (60_exceptions.md R200), 2 bits wide (10_state.md R40). -/
def Fault.code : Fault → BitVec 2
  | .stackOverflow => 1
  | .stackUnderflow => 2
  | .addressOutOfRange => 3

end Sys2Proof.Machine
end

