-- ==== Sys2Proof/Machine/Operands.lean ====
section
/-! DEFINITION. The operand forms: values read from registers, from the keypad, from memory through `I`, and
the position and rows of a sprite. -/

namespace Sys2Proof.Machine

/-- An 8-bit value as a 16-bit one (00_scope.md R6). -/
def zext16 (b : Byte) : Word := b.setWidth 16

/-- A 12-bit address as a 16-bit one (30_encoding.md R93). -/
def zextAddr (nnn : Addr12) : Word := nnn.setWidth 16

/-- The register a shift works on: Vx, or Vy under the parameter SHIFT_USES_VY (42_alu.md R140; log 3). -/
def State.shiftOperand (s : State) (x y : RegIdx) : Byte :=
  if Config.shiftUsesVy then s.readReg y else s.readReg x

/-- `KeyDown(v)` (45_keypad_timers.md R176): no key has a code above 15, so such a value is not pressed. -/
def State.keyDown (s : State) (v : Byte) : Bool :=
  if v.toNat ≤ 0x0F then s.key.getLsbD v.toNat else false

/-- The three decimal digits, hundreds first (43_index_memory.md R154); `/` is floor division of naturals. -/
def decimalDigits (v : Byte) : List Byte :=
  [BitVec.ofNat 8 (v.toNat / 100), BitVec.ofNat 8 (v.toNat / 10 % 10), BitVec.ofNat 8 (v.toNat % 10)]

/-- The address of the glyph of a value, unmasked: the value times 5 (43_index_memory.md R153). -/
def glyphAddress (v : Byte) : Word := zext16 v * BitVec.ofNat 16 Config.glyphBytes

/-- The effective address of data: `I`, as a natural number that never wraps (43_index_memory.md R150). -/
def State.dataAddress (s : State) : Nat := s.I.toNat

/-- The base column of a sprite (44_display.md R162). -/
def baseColumn (vx : Byte) : Nat := vx.toNat % 64

/-- The base row of a sprite (44_display.md R162). -/
def baseRow (vy : Byte) : Nat := vy.toNat % 32

/-- The column of sprite bit `bit`: it wraps from the right edge to the left (44_display.md R162). -/
def spriteColumn (x0 : Nat) (bit : Fin 8) : Fin 64 := ⟨(x0 + bit.val) % 64, Nat.mod_lt _ (by decide)⟩

/-- Sprite column `bit` is byte bit `7 - bit`: the most significant bit is leftmost (44_display.md R161). -/
def spriteBit (b : Byte) (bit : Fin 8) : Bool := b.getLsbD (7 - bit.val)

/-- The sprite columns, in order. -/
def spriteColumns : List (Fin 8) := [0, 1, 2, 3, 4, 5, 6, 7]

/-- One sprite bit onto the framebuffer, with the collision so far (44_display.md R162). -/
def drawBit (py : Fin 32) (x0 : Nat) (b : Byte) (acc : Framebuffer × Bool) (bit : Fin 8) :
    Framebuffer × Bool :=
  if spriteBit b bit then
    (Framebuffer.toggle acc.1 py (spriteColumn x0 bit),
      acc.2 || Framebuffer.pixel acc.1 py (spriteColumn x0 bit))
  else acc

/-- One sprite row; a row past the bottom edge is clipped, not wrapped (44_display.md R162). -/
def drawRow (py x0 : Nat) (b : Byte) (acc : Framebuffer × Bool) : Framebuffer × Bool :=
  if h : py ≤ 31 then spriteColumns.foldl (drawBit ⟨py, by omega⟩ x0 b) acc else acc

/-- The rows of a sprite, downward from row `py` (44_display.md R162). -/
def drawRows : Nat → Nat → List Byte → Framebuffer × Bool → Framebuffer × Bool
  | _, _, [], acc => acc
  | py, x0, b :: bs, acc => drawRows (py + 1) x0 bs (drawRow py x0 b acc)

end Sys2Proof.Machine
end

