-- ==== Sys2Proof/Machine/Cycle.lean ====
section
/-! DEFINITION. What a step does around the instruction (40_execution_cycle.md R110 to R113): the two modes in
which nothing runs, the fetch, the fetch fault, and the word that is no instruction. -/

namespace Sys2Proof.Machine

/-- Mode Faulted: nothing is read, nothing changes; the report is the standing record
(40_execution_cycle.md R110; log 4). -/
def stepFaulted (s : State) : Host.Outcome State Fault Refusal := .next s

/-- Mode WaitingForKey: nothing is read, nothing changes (40_execution_cycle.md R111). -/
def stepWaiting (s : State) : Host.Outcome State Fault Refusal := .next s

/-- What a fetch gives: the word at `pc`, or the offending address when its two bytes are not both in memory. -/
inductive Fetched where
  | word (w : Word)
  | outOfRange (addr : Word)
  deriving DecidableEq, Repr

/-- The big-endian word of the bytes at `pc` and `pc + 1` (40_execution_cycle.md R112, 20_memory.md R64). -/
def State.fetch (s : State) : Fetched :=
  match badAddress s.pc.toNat 2 with
  | some a => .outOfRange a
  | none => .word (joinBytes (Memory.read s.mem s.pc.toNat) (Memory.read s.mem (s.pc.toNat + 1)))

/-- The fetch fault: before the pre-advance, with opcode 0 (40_execution_cycle.md R112). -/
def fetchFault (addr : Word) (s : State) : Host.Outcome State Fault Refusal :=
  .next (s.takeFault .addressOutOfRange s.pc 0 addr)

/-- A word that is no instruction is a no-op, whichever of the six classes it is in
(40_execution_cycle.md R113). -/
def execUnassigned (_u : Unassigned) (s : State) : Host.Outcome State Fault Refusal := .next s

/-- What the host learns from a step (40_execution_cycle.md R116). -/
inductive StepReport where
  | ok
  | err (c : Fault)
  deriving DecidableEq, Repr

/-- The report of the step that left this state: Err(cause) when the state is faulted, Ok otherwise
(40_execution_cycle.md R116; log 4). -/
def State.report (s : State) : StepReport :=
  match s.fault with
  | some r => .err r.cause
  | none => .ok

end Sys2Proof.Machine
end

