-- ==== Sys2Proof/Machine/Flags.lean ====
section
/-! DEFINITION. Results and flags of the arithmetic and shift instructions (42_alu.md R130), and the order in
which result and flag are written (10_state.md R23). -/

namespace Sys2Proof.Machine

/-- The exact 9-bit sum of two bytes (42_alu.md R130). -/
def sum9 (a b : Byte) : BitVec 9 := a.setWidth 9 + b.setWidth 9

/-- `s[7:0]`, the sum modulo 256 (42_alu.md R138). -/
def addResult (a b : Byte) : Byte := (sum9 a b).extractLsb' 0 8

/-- `s[8]`, the carry out (42_alu.md R138). -/
def addCarry (a b : Byte) : Bool := (sum9 a b).getLsbD 8

/-- `(a - b) mod 256` (42_alu.md R130). -/
def subResult (a b : Byte) : Byte := a - b

/-- The no-borrow indicator: 1 if and only if `a >= b` (42_alu.md R130). -/
def noBorrow (a b : Byte) : Bool := decide (b.toNat ≤ a.toNat)

/-- A logical shift right by one (42_alu.md R140). -/
def shrResult (a : Byte) : Byte := a >>> 1

/-- The bit a right shift moves out (42_alu.md R140). -/
def shrFlag (a : Byte) : Bool := a.getLsbD 0

/-- A logical shift left by one (42_alu.md R142). -/
def shlResult (a : Byte) : Byte := a <<< 1

/-- The bit a left shift moves out (42_alu.md R142). -/
def shlFlag (a : Byte) : Bool := a.getLsbD 7

/-- A flag is the whole byte 0x00 or 0x01 (10_state.md R22). -/
def flagByte (f : Bool) : Byte := if f then 1 else 0

/-- The flag register VF (10_state.md R22). -/
def regF : RegIdx := 15

/-- Write VF as a flag. -/
def State.writeFlag (s : State) (f : Bool) : State := s.writeReg regF (flagByte f)

/-- Write the result to Vx, then the flag to VF, last (10_state.md R23). -/
def State.writeResultFlag (s : State) (x : RegIdx) (r : Byte) (f : Bool) : State :=
  (s.writeReg x r).writeFlag f

end Sys2Proof.Machine
end

