-- ==== Sys2Proof/Machine/Alu.lean ====
section
/-! DEFINITION. Register and ALU instructions (42_alu.md): operands are read first, the result is written to
Vx, a flag is written to VF last (R131). -/

namespace Sys2Proof.Machine

/-- 6xnn (42_alu.md R132). -/
def execLdImm (x : RegIdx) (nn : Byte) (s : State) : Host.Outcome State Fault Refusal :=
  .next (s.writeReg x nn)

/-- 7xnn (42_alu.md R133): wraps, and writes no flag. -/
def execAddImm (x : RegIdx) (nn : Byte) (s : State) : Host.Outcome State Fault Refusal :=
  .next (s.writeReg x (addResult (s.readReg x) nn))

/-- 8xy0 (42_alu.md R134). -/
def execLdReg (x y : RegIdx) (s : State) : Host.Outcome State Fault Refusal :=
  .next (s.writeReg x (s.readReg y))

/-- 8xy1 (42_alu.md R135): VF is neither written nor cleared. -/
def execOrReg (x y : RegIdx) (s : State) : Host.Outcome State Fault Refusal :=
  .next (s.writeReg x (s.readReg x ||| s.readReg y))

/-- 8xy2 (42_alu.md R136). -/
def execAndReg (x y : RegIdx) (s : State) : Host.Outcome State Fault Refusal :=
  .next (s.writeReg x (s.readReg x &&& s.readReg y))

/-- 8xy3 (42_alu.md R137). -/
def execXorReg (x y : RegIdx) (s : State) : Host.Outcome State Fault Refusal :=
  .next (s.writeReg x (s.readReg x ^^^ s.readReg y))

/-- 8xy4 (42_alu.md R138): carry out, no carry in. -/
def execAddReg (x y : RegIdx) (s : State) : Host.Outcome State Fault Refusal :=
  .next (s.writeResultFlag x (addResult (s.readReg x) (s.readReg y))
    (addCarry (s.readReg x) (s.readReg y)))

/-- 8xy5 (42_alu.md R139). -/
def execSubReg (x y : RegIdx) (s : State) : Host.Outcome State Fault Refusal :=
  .next (s.writeResultFlag x (subResult (s.readReg x) (s.readReg y))
    (noBorrow (s.readReg x) (s.readReg y)))

/-- 8xy6 (42_alu.md R140). -/
def execShr (x y : RegIdx) (s : State) : Host.Outcome State Fault Refusal :=
  .next (s.writeResultFlag x (shrResult (s.shiftOperand x y)) (shrFlag (s.shiftOperand x y)))

/-- 8xy7 (42_alu.md R141): Vy - Vx, still into Vx. -/
def execSubn (x y : RegIdx) (s : State) : Host.Outcome State Fault Refusal :=
  .next (s.writeResultFlag x (subResult (s.readReg y) (s.readReg x))
    (noBorrow (s.readReg y) (s.readReg x)))

/-- 8xyE (42_alu.md R142). -/
def execShl (x y : RegIdx) (s : State) : Host.Outcome State Fault Refusal :=
  .next (s.writeResultFlag x (shlResult (s.shiftOperand x y)) (shlFlag (s.shiftOperand x y)))

/-- Cxnn for a draw `r` that is given (42_alu.md R143). -/
def rndWith (r : Byte) (x : RegIdx) (nn : Byte) (s : State) : State :=
  (s.writeReg x (r &&& nn)).countDraw

/-- Cxnn (42_alu.md R143): exactly one draw, a free value (log 2). -/
def execRnd (x : RegIdx) (nn : Byte) (s : State) : Host.Outcome State Fault Refusal :=
  .next (rndWith (Config.randSeq s.draws) x nn s)

end Sys2Proof.Machine
end

