-- ==== Sys2Proof/Machine/Display.lean ====
section
/-! DEFINITION. The display instructions (44_display.md). -/

namespace Sys2Proof.Machine

/-- 00E0 (44_display.md R163): `dirty` is set even when the framebuffer was clear. -/
def execCls (s : State) : Host.Outcome State Fault Refusal :=
  .next (s.setScreen Framebuffer.clear)

/-- Dxyn for the `n` sprite bytes that were read (44_display.md R162): the position is read before VF is
written, the collision flag is written last, `dirty` is set whether or not a pixel changed. -/
def drawSprite (x y : RegIdx) (bytes : List Byte) (s : State) : State :=
  let drawn := drawRows (baseRow (s.readReg y)) (baseColumn (s.readReg x)) bytes (s.fb, false)
  (s.setScreen drawn.1).writeFlag drawn.2

/-- Dxyn (44_display.md R162). -/
def execDrw (x y : RegIdx) (n : RowCount) (s : State) : Host.Outcome State Fault Refusal :=
  match badAddress s.dataAddress n.val with
  | some a => .next (s.raiseIn .addressOutOfRange (.drw x y n) a)
  | none => .next (drawSprite x y (Memory.readBytes s.mem s.dataAddress n.val) s)

end Sys2Proof.Machine
end

