-- ==== Sys2Proof/Machine/Flow.lean ====
section
/-! DEFINITION. Control transfer (41_flow.md). Each meaning runs on the state after the pre-advance (R120). -/

namespace Sys2Proof.Machine

/-- 00EE (41_flow.md R121). -/
def execRet (s : State) : Host.Outcome State Fault Refusal :=
  match s.pop with
  | none => .next (s.raiseIn .stackUnderflow .ret 0)
  | some (target, s') => .next (s'.setPc target)

/-- 1nnn (41_flow.md R122). -/
def execJp (nnn : Addr12) (s : State) : Host.Outcome State Fault Refusal :=
  .next (s.setPc (zextAddr nnn))

/-- 2nnn (41_flow.md R123): the address pushed is the pre-advanced `pc`. -/
def execCall (nnn : Addr12) (s : State) : Host.Outcome State Fault Refusal :=
  match s.push s.pc with
  | none => .next (s.raiseIn .stackOverflow (.call nnn) 0)
  | some s' => .next (s'.setPc (zextAddr nnn))

/-- 3xnn (41_flow.md R124). -/
def execSeImm (x : RegIdx) (nn : Byte) (s : State) : Host.Outcome State Fault Refusal :=
  .next (s.skipIf (s.readReg x == nn))

/-- 4xnn (41_flow.md R125). -/
def execSneImm (x : RegIdx) (nn : Byte) (s : State) : Host.Outcome State Fault Refusal :=
  .next (s.skipIf (s.readReg x != nn))

/-- 5xy0 (41_flow.md R126). -/
def execSeReg (x y : RegIdx) (s : State) : Host.Outcome State Fault Refusal :=
  .next (s.skipIf (s.readReg x == s.readReg y))

/-- 9xy0 (41_flow.md R127). -/
def execSneReg (x y : RegIdx) (s : State) : Host.Outcome State Fault Refusal :=
  .next (s.skipIf (s.readReg x != s.readReg y))

/-- Bnnn (41_flow.md R128): the register is always V0; the sum is not reduced to 12 bits. -/
def execJpV0 (nnn : Addr12) (s : State) : Host.Outcome State Fault Refusal :=
  .next (s.setPc (zextAddr nnn + zext16 (s.readReg 0)))

end Sys2Proof.Machine
end

