-- ==== Sys2Proof/Machine/IndexMemory.lean ====
section
/-! DEFINITION. The index register, loads and stores (43_index_memory.md). A transfer checks its whole range
before it changes anything (20_memory.md R63) and leaves `I` as it was (R150). -/

namespace Sys2Proof.Machine

/-- Annn (43_index_memory.md R151). -/
def execLdI (nnn : Addr12) (s : State) : Host.Outcome State Fault Refusal :=
  .next (s.setI (zextAddr nnn))

/-- Fx1E (43_index_memory.md R152): wraps at 16 bits, writes no flag. -/
def execAddI (x : RegIdx) (s : State) : Host.Outcome State Fault Refusal :=
  .next (s.setI (s.I + zext16 (s.readReg x)))

/-- Fx29 (43_index_memory.md R153). -/
def execLdF (x : RegIdx) (s : State) : Host.Outcome State Fault Refusal :=
  .next (s.setI (glyphAddress (s.readReg x)))

/-- Fx33 (43_index_memory.md R154). -/
def execLdB (x : RegIdx) (s : State) : Host.Outcome State Fault Refusal :=
  match badAddress s.dataAddress 3 with
  | some a => .next (s.raiseIn .addressOutOfRange (.ldB x) a)
  | none => .next (s.setMem (Memory.writeBytes s.mem s.dataAddress (decimalDigits (s.readReg x))))

/-- Fx55 (43_index_memory.md R155). -/
def execStoreRegs (x : RegIdx) (s : State) : Host.Outcome State Fault Refusal :=
  match badAddress s.dataAddress (x.val + 1) with
  | some a => .next (s.raiseIn .addressOutOfRange (.storeRegs x) a)
  | none => .next (s.setMem (Memory.writeBytes s.mem s.dataAddress (s.regsUpTo x)))

/-- Fx65 (43_index_memory.md R156). -/
def execLoadRegs (x : RegIdx) (s : State) : Host.Outcome State Fault Refusal :=
  match badAddress s.dataAddress (x.val + 1) with
  | some a => .next (s.raiseIn .addressOutOfRange (.loadRegs x) a)
  | none => .next (State.writeRegsFrom 0 (Memory.readBytes s.mem s.dataAddress (x.val + 1)) s)

end Sys2Proof.Machine
end

