-- ==== Sys2Proof/Machine/KeypadTimers.lean ====
section
/-! DEFINITION. The keypad and timer instructions (45_keypad_timers.md). -/

namespace Sys2Proof.Machine

/-- Ex9E (45_keypad_timers.md R170). -/
def execSkp (x : RegIdx) (s : State) : Host.Outcome State Fault Refusal :=
  .next (s.skipIf (s.keyDown (s.readReg x)))

/-- ExA1 (45_keypad_timers.md R171). -/
def execSknp (x : RegIdx) (s : State) : Host.Outcome State Fault Refusal :=
  .next (s.skipIf (!s.keyDown (s.readReg x)))

/-- Fx07 (45_keypad_timers.md R173). -/
def execLdFromDT (x : RegIdx) (s : State) : Host.Outcome State Fault Refusal :=
  .next (s.writeReg x s.DT)

/-- Fx0A (45_keypad_timers.md R172): only `wait` is written; the register is written by the `press` that
ends the wait. -/
def execLdKey (x : RegIdx) (s : State) : Host.Outcome State Fault Refusal :=
  .next (s.setWait (some x))

/-- Fx15 (45_keypad_timers.md R174). -/
def execLdToDT (x : RegIdx) (s : State) : Host.Outcome State Fault Refusal :=
  .next (s.setDT (s.readReg x))

/-- Fx18 (45_keypad_timers.md R175). -/
def execLdToST (x : RegIdx) (s : State) : Host.Outcome State Fault Refusal :=
  .next (s.setST (s.readReg x))

end Sys2Proof.Machine
end

