-- ==== Sys2Proof/Machine/Step.lean ====
section
/-! DEFINITION. One `step` (40_execution_cycle.md R110 to R113), and where a test puts an instruction. -/

namespace Sys2Proof.Machine

/-- The operation `step`, by mode. -/
def step (s : State) : Host.Outcome State Fault Refusal :=
  match s.mode with
  | .faulted _ => stepFaulted s
  | .waitingForKey _ => stepWaiting s
  | .running =>
    match s.fetch with
    | .outOfRange a => fetchFault a s
    | .word w =>
      match decodeWord w with
      | .instr i => exec i s.preAdvance
      | .unassigned u => execUnassigned u s.preAdvance

/-- The instruction whose bits are `w` (numbered as spec/opcode_table.json numbers them) stored at `pc`, where
`step` fetches; it stands for what `load` does at 0x200 (log 11). -/
def State.withFetchWord (s : State) (nbits w : Nat) : State :=
  match tableWord nbits w with
  | none => s
  | some word => s.setMem (Memory.writeBytes s.mem s.pc.toNat [highByte word, lowByte word])

end Sys2Proof.Machine
end

