-- ==== Sys2Proof/Machine/HostOps.lean ====
section
/-! DEFINITION. What the host does to the state between steps (46_host_interface.md R181 to R188), and what it
may read (R189 to R193). Every operation is total in every mode. -/

namespace Sys2Proof.Machine

/-- A timer counts down by 1 and stops at 0 (46_host_interface.md R184). -/
def tickTimer (b : Byte) : Byte := if b = 0 then 0 else b - 1

/-- `advance_timers()`, in every mode (46_host_interface.md R184). -/
def advanceTimers (s : State) : State := (s.setDT (tickTimer s.DT)).setST (tickTimer s.ST)

/-- The bit of a key in a 16-bit snapshot (46_host_interface.md R187). -/
def keyBit (k : KeyCode) : BitVec 16 := 1#16 <<< k.val

/-- `key[k] <- 1`. -/
def State.keyOn (s : State) (k : KeyCode) : State := s.setKey (s.key ||| keyBit k)

/-- `key[k] <- 0`. -/
def State.keyOff (s : State) (k : KeyCode) : State := s.setKey (s.key &&& ~~~keyBit k)

/-- `press(k)` (46_host_interface.md R185): it ends a wait, whichever key it is and whether or not the key
was held; the code goes to the waiting register. In mode Faulted it only sets the key. -/
def press (k : KeyCode) (s : State) : State :=
  match s.mode with
  | .waitingForKey r => ((s.keyOn k).writeReg r (BitVec.ofNat 8 k.val)).setWait none
  | .running => s.keyOn k
  | .faulted _ => s.keyOn k

/-- `release(k)` (46_host_interface.md R186): a release never ends a wait. -/
def release (k : KeyCode) (s : State) : State := s.keyOff k

/-- The key codes in ascending order. -/
def keyCodes : List KeyCode := [0, 1, 2, 3, 4, 5, 6, 7, 8, 9, 10, 11, 12, 13, 14, 15]

/-- One key of a snapshot: newly down is a press, newly up a release (46_host_interface.md R187). -/
def setOneKey (snapshot : BitVec 16) (s : State) (k : KeyCode) : State :=
  if snapshot.getLsbD k.val && !s.key.getLsbD k.val then press k s
  else if !snapshot.getLsbD k.val && s.key.getLsbD k.val then release k s
  else s

/-- `set_keys(s)` (46_host_interface.md R187), in ascending key code. -/
def setKeys (snapshot : BitVec 16) (s : State) : State := keyCodes.foldl (setOneKey snapshot) s

/-- `clear_dirty()` (46_host_interface.md R188). -/
def clearDirty (s : State) : State := s.undirty

/-- `load(bytes)` (46_host_interface.md R182): nothing at all is written when the program does not fit. -/
def load (bytes : List Byte) (s : State) : Option State :=
  if romFits bytes then some (s.setMem (Memory.writeBytes s.mem Config.progBase bytes)) else none

/-! ### Observations -/

/-- Every pixel may be read (46_host_interface.md R189). -/
def observePixel (s : State) (py : Fin 32) (px : Fin 64) : Bool := Framebuffer.pixel s.fb py px

/-- The dirty flag may be read (46_host_interface.md R189). -/
def observeDirty (s : State) : Bool := s.dirty

/-- The sound predicate `ST > 0` (46_host_interface.md R190). -/
def soundActive (s : State) : Bool := decide (0 < s.ST.toNat)

/-- Whether the core waits for a key (46_host_interface.md R191). -/
def observeWaiting (s : State) : Bool := s.wait.isSome

/-- The fault record (46_host_interface.md R192). -/
def observeFault (s : State) : Option FaultRecord := s.fault

/-- Read-back of a byte of memory, for the addresses that exist (20_memory.md R69, 46_host_interface.md R193). -/
def observeByte (s : State) (a : Fin 4096) : Byte := Memory.read s.mem a.val

end Sys2Proof.Machine
end

