-- ==== Sys2Proof/Machine/Schedule.lean ====
section
/-! DEFINITION. The operations the host may invoke (46_host_interface.md R181), one at a time and in any order
(R194): a schedule is a list of them. -/

namespace Sys2Proof.Machine

/-- The operations of 46_host_interface.md R181 that may change the state. A key code has 4 bits, so no
other can be passed (R185). -/
inductive HostOp where
  | reset
  | load (bytes : List Byte)
  | step
  | advanceTimers
  | press (k : KeyCode)
  | release (k : KeyCode)
  | setKeys (snapshot : BitVec 16)
  | clearDirty
  deriving DecidableEq, Repr

/-- The result an operation returns (46_host_interface.md R181). -/
inductive OpResult where
  | none
  | ok
  | err (c : Fault)
  | romTooLarge
  deriving DecidableEq, Repr

/-- The report of a step as an operation's result. -/
def StepReport.result : StepReport → OpResult
  | .ok => .ok
  | .err c => .err c

/-- The state a successful step leaves, with its report; a step that does not answer a state stays what it is. -/
def afterStep : Host.Outcome State Fault Refusal → Host.Outcome (State × OpResult) Fault Refusal
  | .next t => .next (t, t.report.result)
  | .fault r => .fault r
  | .refused r => .refused r

/-- One operation: the state after it and its result. RomTooLarge is a result of `load` and changes nothing
(60_exceptions.md R204). -/
def applyOp (o : HostOp) (s : State) : Host.Outcome (State × OpResult) Fault Refusal :=
  match o with
  | .reset => .next (s.resetFrom, .none)
  | .load bytes =>
    match load bytes s with
    | some t => .next (t, .ok)
    | none => .next (s, .romTooLarge)
  | .step => afterStep (step s)
  | .advanceTimers => .next (advanceTimers s, .none)
  | .press k => .next (press k s, .none)
  | .release k => .next (release k s, .none)
  | .setKeys snapshot => .next (setKeys snapshot s, .none)
  | .clearDirty => .next (clearDirty s, .none)

/-- A schedule of operations, performed one after another (46_host_interface.md R194). -/
def runOps : List HostOp → State → Host.Outcome State Fault Refusal
  | [], s => .next s
  | o :: os, s =>
    match applyOp o s with
    | .next (t, _) => runOps os t
    | .fault r => .fault r
    | .refused r => .refused r

end Sys2Proof.Machine
end

