-- ==== Sys2Proof/Safety.lean ====
section
/-! DEFINITION. What claims are stated in: the parts of the state and their agreement, the invariants of the
machine, and a safe run. -/

namespace Sys2Proof.Machine

/-- The parts of the state vector (10_state.md R41), and the model's count of draws. -/
inductive Part where
  | registers | index | counter | stack | depth | delayTimer | soundTimer | screen | dirty | keypad
  | wait | fault | memory | draws
  deriving DecidableEq, Repr

/-- Two states agree on a part. Memory is compared byte by byte, as it is read. -/
def Agree (p : Part) (s t : State) : Prop :=
  match p with
  | .registers => ∀ r : RegIdx, t.readReg r = s.readReg r
  | .index => t.I = s.I
  | .counter => t.pc = s.pc
  | .stack => t.stack = s.stack
  | .depth => t.sp = s.sp
  | .delayTimer => t.DT = s.DT
  | .soundTimer => t.ST = s.ST
  | .screen => t.fb = s.fb
  | .dirty => t.dirty = s.dirty
  | .keypad => t.key = s.key
  | .wait => t.wait = s.wait
  | .fault => t.fault = s.fault
  | .memory => ∀ a : Nat, Memory.read t.mem a = Memory.read s.mem a
  | .draws => t.draws = s.draws

/-- Everything outside the named parts is unchanged: the frame of an instruction. -/
def OnlyChanges (ps : List Part) (s t : State) : Prop := ∀ p : Part, p ∉ ps → Agree p s t

/-- The encoding of an instruction: it is this 16-bit word, field by field, and the decoder reads it back
(30_encoding.md R91, R94). -/
def EncodedAs (i : Instr) (word : Nat) : Prop :=
  (encodeWord i).toNat = word ∧ decodeWord (BitVec.ofNat 16 word) = .instr i

/-- Instruction `i`, run in `s`, has raised a fault and left `t`: the record holds the cause, the address of the
instruction (`pc` has been advanced by 2), its word and the address given, and nothing else has changed
(60_exceptions.md R209, R210). -/
def TakesFault (i : Instr) (c : Fault) (addr : Word) (s t : State) : Prop :=
  t.fault = some { cause := c, epc := s.pc - 2, opcode := encodeWord i, addr := addr } ∧
    OnlyChanges [.fault] s t

/-- The parts an instruction may write (10_state.md R21, R23 to R38; 60_exceptions.md R200). -/
def writtenParts : Instr → List Part
  | .cls => [.screen, .dirty]
  | .ret => [.depth, .counter, .fault]
  | .jp _ | .jpV0 _ => [.counter]
  | .call _ => [.stack, .depth, .counter, .fault]
  | .seImm _ _ | .sneImm _ _ | .seReg _ _ | .sneReg _ _ | .skp _ | .sknp _ => [.counter]
  | .ldImm _ _ | .addImm _ _ | .ldReg _ _ | .orReg _ _ | .andReg _ _ | .xorReg _ _ | .addReg _ _
  | .subReg _ _ | .shr _ _ | .subn _ _ | .shl _ _ | .ldFromDT _ => [.registers]
  | .rnd _ _ => [.registers, .draws]
  | .ldI _ | .addI _ | .ldF _ => [.index]
  | .ldB _ | .storeRegs _ => [.memory, .fault]
  | .loadRegs _ => [.registers, .fault]
  | .drw _ _ _ => [.registers, .screen, .dirty, .fault]
  | .ldKey _ => [.wait]
  | .ldToDT _ => [.delayTimer]
  | .ldToST _ => [.soundTimer]

/-- The registers an instruction may write: its destination, and VF where it writes a flag (10_state.md R21, R23). -/
def WritesRegister : Instr → RegIdx → Prop
  | .ldImm x _, r | .addImm x _, r | .ldReg x _, r | .orReg x _, r | .andReg x _, r | .xorReg x _, r
  | .rnd x _, r | .ldFromDT x, r => r = x
  | .addReg x _, r | .subReg x _, r | .shr x _, r | .subn x _, r | .shl x _, r => r = x ∨ r = regF
  | .drw _ _ _, r => r = regF
  | .loadRegs x, r => r.val ≤ x.val
  | .cls, _ | .ret, _ | .jp _, _ | .call _, _ | .seImm _ _, _ | .sneImm _ _, _ | .seReg _ _, _ | .sneReg _ _, _
  | .ldI _, _ | .jpV0 _, _ | .skp _, _ | .sknp _, _ | .ldKey _, _ | .ldToDT _, _ | .ldToST _, _ | .addI _, _
  | .ldF _, _ | .ldB _, _ | .storeRegs _, _ => False

/-- How many bytes an instruction may store, from the address `State.dataAddress` on (43_index_memory.md R154,
R155). -/
def storedLength : Instr → Nat
  | .ldB _ => 3
  | .storeRegs x => x.val + 1
  | .cls | .ret | .jp _ | .call _ | .seImm _ _ | .sneImm _ _ | .seReg _ _ | .sneReg _ _ | .ldImm _ _ | .addImm _ _
  | .ldReg _ _ | .orReg _ _ | .andReg _ _ | .xorReg _ _ | .addReg _ _ | .subReg _ _ | .shr _ _ | .subn _ _ | .shl _ _
  | .ldI _ | .jpV0 _ | .rnd _ _ | .drw _ _ _ | .skp _ | .sknp _ | .ldFromDT _ | .ldKey _ | .ldToDT _ | .ldToST _
  | .addI _ | .ldF _ | .loadRegs _ => 0

/-- The set of pixels the 1 bits of a sprite of `n` rows at `I` land on, at the position (Vx, Vy): columns wrap,
the base row wraps, rows past the bottom edge are clipped, there being no row of that number
(44_display.md R161, R162). -/
def SpriteCovers (s : State) (x y : RegIdx) (n : RowCount) (py : Fin 32) (px : Fin 64) : Prop :=
  ∃ (row : Nat) (bit : Fin 8), row < n.val ∧
    py.val = (s.readReg y).toNat % 32 + row ∧ px.val = ((s.readReg x).toNat + bit.val) % 64 ∧
    (Memory.read s.mem (s.I.toNat + row)).getLsbD (7 - bit.val) = true

/-- The instruction the next step of a running core would execute. -/
def NextInstr (s : State) (i : Instr) : Prop := ∃ w, s.fetch = .word w ∧ decodeWord w = .instr i

/-- Memory is in canonical form. -/
def MemoryCanonical (s : State) : Prop := Memory.wf s.mem = true

/-- A fault and a wait never hold together (10_state.md R37). -/
def ModesExclusive (s : State) : Prop := s.fault = none ∨ s.wait = none

/-- A fault record has legal contents (60_exceptions.md R200 to R203): the address is 0 for the stack faults and
above 0xFFF for a range fault, the opcode of an underflow is 00EE and that of an overflow a 2nnn, and the
stack is at the bound that was hit. -/
def RecordLegal (s : State) (r : FaultRecord) : Prop :=
  match r.cause with
  | .stackOverflow => r.addr = 0 ∧ opClass r.opcode = 2 ∧ s.sp = 16
  | .stackUnderflow => r.addr = 0 ∧ r.opcode = 0x00EE ∧ s.sp = 0
  | .addressOutOfRange => 0x1000 ≤ r.addr.toNat

/-- In a faulted state `pc` is 2 past the faulting instruction, or at it after a fetch fault
(60_exceptions.md R210). -/
def RecordPrecise (s : State) (r : FaultRecord) : Prop :=
  s.pc = r.epc + 2 ∨ (s.pc = r.epc ∧ r.opcode = 0 ∧ r.cause = .addressOutOfRange)

/-- The fault register is legal and precise. -/
def FaultRegisterLegal (s : State) : Prop :=
  ∀ r : FaultRecord, s.fault = some r → RecordLegal s r ∧ RecordPrecise s r

/-- The bounds of 10_state.md R26: `pc` is at most 0x10FE and no return address is above 0x1000. -/
def CounterBounded (s : State) : Prop :=
  s.pc.toNat ≤ 0x10FE ∧ ∀ j : Fin 16, s.stack[j.val].toNat ≤ 0x1000

/-- The invariant of the machine. -/
def Invariant (s : State) : Prop :=
  MemoryCanonical s ∧ ModesExclusive s ∧ FaultRegisterLegal s ∧ CounterBounded s

/-- The self-jump `1nnn` at its own address (40_execution_cycle.md R117): the state a program has halted in. -/
def HaltedAt (h : Addr12) (s : State) : Prop :=
  s.mode = .running ∧ s.pc = zextAddr h ∧ s.fetch = .word (encodeWord (.jp h))

/-- A schedule is safe from a state: it runs to a state, and the machine is not faulted there. A fault stands
until reset (60_exceptions.md R209), so with no reset in the schedule the machine never was. -/
def SafeRun (ops : List HostOp) (s : State) : Prop :=
  ∃ t, runOps ops s = .next t ∧ t.fault = none

end Sys2Proof.Machine
end

