-- ==== Sys2Proof/Certificates/Slice0/Obligations.lean ====
section
/-! DEFINITION. The statements for the provers. In a statement about `exec i s` the state `s` is the one after the
pre-advance: its `pc` is 2 past the instruction (41_flow.md R120). -/

open Sys2Proof Sys2Proof.Machine

/-! ### Encoding -/

/-- Sanity: words written out from the patterns of 30_encoding.md R94 decode to their instructions. -/
def Obligations.WrittenOutWordsDecode : Prop :=
  decodeWord 0x00E0 = .instr .cls ∧ decodeWord 0x2300 = .instr (.call 0x300) ∧
  decodeWord 0x3643 = .instr (.seImm 6 0x43) ∧ decodeWord 0x812E = .instr (.shl 1 2) ∧
  decodeWord 0xA123 = .instr (.ldI 0x123) ∧ decodeWord 0xD012 = .instr (.drw 0 1 2) ∧
  decodeWord 0xE1A1 = .instr (.sknp 1) ∧ decodeWord 0xF165 = .instr (.loadRegs 1)

/-- The bytes of every well-formed instruction, with every operand at every value, decode to it, and the bytes
after them are left over. -/
def Obligations.DecodeOfEncodedInstruction : Prop :=
  ∀ (i : Instr) (rest : List Byte), i.wellFormed = true → decode (encode i ++ rest) = .ok i rest

/-- The other direction: no bit of an assigned word is dropped by decoding it. -/
def Obligations.EncodeOfDecodedWord : Prop :=
  ∀ (w : Word) (i : Instr), decodeWord w = .instr i → encodeWord i = w

/-- The decoder against the opcode table of 30_encoding.md R94: there are 34 rows, no word matches two of them, and a
word decodes to an instruction of a row exactly when it matches the row. -/
def Obligations.DecoderAgreesWithOpcodeTable : Prop :=
  opcodeRows.length = 34 ∧
  (∀ (w : Word) (r q : OpcodeRow), r ∈ opcodeRows → q ∈ opcodeRows → r.matchesWord w = true →
    q.matchesWord w = true → r = q) ∧
  (∀ (w : Word) (r : OpcodeRow), r ∈ opcodeRows →
    (r.matchesWord w = true ↔ ∃ i, decodeWord w = .instr i ∧ opcodeRow i = r))

/-- The unassigned space of 30_encoding.md R95: exactly the words of its six classes are no instruction. That
5xyn and 9xyn with n above 0 are among them is the spec's decision D20 (log 14). -/
def Obligations.UnassignedWordsAreTheSixClasses : Prop :=
  ∀ w : Word, (∃ u, decodeWord w = .unassigned u) ↔
    (w.toNat / 4096 = 0x0 ∧ w ≠ 0x00E0 ∧ w ≠ 0x00EE) ∨
    (w.toNat / 4096 = 0x5 ∧ w.toNat % 16 ≠ 0) ∨
    (w.toNat / 4096 = 0x8 ∧ w.toNat % 16 ∈ [0x8, 0x9, 0xA, 0xB, 0xC, 0xD, 0xF]) ∨
    (w.toNat / 4096 = 0x9 ∧ w.toNat % 16 ≠ 0) ∨
    (w.toNat / 4096 = 0xE ∧ w.toNat % 256 ∉ [0x9E, 0xA1]) ∨
    (w.toNat / 4096 = 0xF ∧ w.toNat % 256 ∉ [0x07, 0x0A, 0x15, 0x18, 0x1E, 0x29, 0x33, 0x55, 0x65])

/-! ### The step -/

/-- 40_execution_cycle.md R112 and R113: in mode Running a step takes the fetch fault, before the pre-advance, when
the two bytes at `pc` are not both in memory; otherwise it advances `pc` by 2 and runs the instruction the bytes
decode to, or does nothing more when they are no instruction. That a fetch outside memory is a fault is the spec's
decision D6, its record the decision D4 (log 14). -/
def Obligations.RunningStepFetchesAdvancesExecutes : Prop :=
  ∀ s : State, s.fault = none → s.wait = none →
    (0xFFF < s.pc.toNat + 1 → ∃ t, step s = .next t ∧
      t.fault = some { cause := .addressOutOfRange, epc := s.pc, opcode := 0,
                       addr := BitVec.ofNat 16 (max s.pc.toNat 0x1000) } ∧
      OnlyChanges [.fault] s t) ∧
    (s.pc.toNat + 1 ≤ 0xFFF →
      (∀ i : Instr, i.wellFormed = true →
        decode [Memory.read s.mem s.pc.toNat, Memory.read s.mem (s.pc.toNat + 1)] = .ok i [] →
        step s = exec i (s.setPc (s.pc + 2))) ∧
      (∀ u, decode [Memory.read s.mem s.pc.toNat, Memory.read s.mem (s.pc.toNat + 1)] = .unassigned u →
        step s = .next (s.setPc (s.pc + 2))))

/-- 40_execution_cycle.md R110 and R111: a step of a faulted core and a step of a waiting core change nothing; the
first reports the recorded cause, the second Ok (the spec's decisions D4 and D2; log 14). -/
def Obligations.StepChangesNothingWhenFaultedOrWaiting : Prop :=
  ∀ s : State,
    (∀ r, s.fault = some r → applyOp .step s = .next (s, .err r.cause)) ∧
    (∀ x, s.fault = none → s.wait = some x → applyOp .step s = .next (s, .ok))

/-- Every operation is total (46_host_interface.md R181) and every word executable (30_encoding.md R97): a step answers
a next state from every state, whatever bytes it fetches, and so does every schedule of operations. A step that faults
and a step in mode Faulted answer a next state too: that is the model's reading (log 4, DEDUCED, over the spec's
decision D4; 93_implementation_defined.md U4 allows a model with no successor there). The core itself executes nothing
further after a fault (60_exceptions.md R209); that is FirstFaultStandsUntilReset. -/
def Obligations.EveryScheduleRuns : Prop :=
  (∀ s : State, ∃ t, step s = .next t) ∧ ∀ (ops : List HostOp) (s : State), ∃ t, runOps ops s = .next t

/-- 40_execution_cycle.md R116: a step reports Ok, or Err with the cause that stands in the fault register
(the shape of the report is the spec's decision D4; log 4, log 14). -/
def Obligations.StepReportsOkOrTheCause : Prop :=
  ∀ s : State, ∃ t r, applyOp .step s = .next (t, r) ∧
    ((t.fault = none ∧ r = .ok) ∨ ∃ f, t.fault = some f ∧ r = .err f.cause)

/-! ### Register and ALU instructions -/

/-- 42_alu.md R132 and R133. -/
def Obligations.ImmediateLoadAndAdd : Prop :=
  ∀ (x : RegIdx) (nn : Byte) (s : State),
    (EncodedAs (.ldImm x nn) (0x6000 + x.val * 256 + nn.toNat) ∧ ∃ t, exec (.ldImm x nn) s = .next t ∧
      (∀ r, t.readReg r = if r = x then nn else s.readReg r) ∧ OnlyChanges [.registers] s t) ∧
    (EncodedAs (.addImm x nn) (0x7000 + x.val * 256 + nn.toNat) ∧ ∃ t, exec (.addImm x nn) s = .next t ∧
      (∀ r, (t.readReg r).toNat =
        if r = x then ((s.readReg x).toNat + nn.toNat) % 256 else (s.readReg r).toNat) ∧
      OnlyChanges [.registers] s t)

/-- 42_alu.md R134 to R137: VF is left alone unless it is the destination. -/
def Obligations.CopyAndLogicWriteOnlyVx : Prop :=
  ∀ (x y : RegIdx) (s : State),
    (EncodedAs (.ldReg x y) (0x8000 + x.val * 256 + y.val * 16) ∧ ∃ t, exec (.ldReg x y) s = .next t ∧
      (∀ r, t.readReg r = if r = x then s.readReg y else s.readReg r) ∧ OnlyChanges [.registers] s t) ∧
    (EncodedAs (.orReg x y) (0x8001 + x.val * 256 + y.val * 16) ∧ ∃ t, exec (.orReg x y) s = .next t ∧
      (∀ r, t.readReg r = if r = x then s.readReg x ||| s.readReg y else s.readReg r) ∧
      OnlyChanges [.registers] s t) ∧
    (EncodedAs (.andReg x y) (0x8002 + x.val * 256 + y.val * 16) ∧ ∃ t, exec (.andReg x y) s = .next t ∧
      (∀ r, t.readReg r = if r = x then s.readReg x &&& s.readReg y else s.readReg r) ∧
      OnlyChanges [.registers] s t) ∧
    (EncodedAs (.xorReg x y) (0x8003 + x.val * 256 + y.val * 16) ∧ ∃ t, exec (.xorReg x y) s = .next t ∧
      (∀ r, t.readReg r = if r = x then s.readReg x ^^^ s.readReg y else s.readReg r) ∧
      OnlyChanges [.registers] s t)

/-- 42_alu.md R138: the carry out, not the carry in; VF ends as the flag whichever register is x. -/
def Obligations.AddWritesSumThenCarry : Prop :=
  ∀ (x y : RegIdx) (s : State), EncodedAs (.addReg x y) (0x8004 + x.val * 256 + y.val * 16) ∧
    ∃ t, exec (.addReg x y) s = .next t ∧
      (∀ r, (t.readReg r).toNat =
        if r = 0xF then (if 255 < (s.readReg x).toNat + (s.readReg y).toNat then 1 else 0)
        else if r = x then ((s.readReg x).toNat + (s.readReg y).toNat) % 256
        else (s.readReg r).toNat) ∧
      OnlyChanges [.registers] s t

/-- 42_alu.md R139 and R141: the flag is 1 when there is no borrow. -/
def Obligations.SubtractionsWriteDifferenceThenNoBorrow : Prop :=
  ∀ (x y : RegIdx) (s : State),
    (EncodedAs (.subReg x y) (0x8005 + x.val * 256 + y.val * 16) ∧ ∃ t, exec (.subReg x y) s = .next t ∧
      (∀ r, (t.readReg r).toNat =
        if r = 0xF then (if (s.readReg y).toNat ≤ (s.readReg x).toNat then 1 else 0)
        else if r = x then ((s.readReg x).toNat + 256 - (s.readReg y).toNat) % 256
        else (s.readReg r).toNat) ∧
      OnlyChanges [.registers] s t) ∧
    (EncodedAs (.subn x y) (0x8007 + x.val * 256 + y.val * 16) ∧ ∃ t, exec (.subn x y) s = .next t ∧
      (∀ r, (t.readReg r).toNat =
        if r = 0xF then (if (s.readReg x).toNat ≤ (s.readReg y).toNat then 1 else 0)
        else if r = x then ((s.readReg y).toNat + 256 - (s.readReg x).toNat) % 256
        else (s.readReg r).toNat) ∧
      OnlyChanges [.registers] s t)

/-- 42_alu.md R140 and R142, with SHIFT_USES_VY = false: Vx is shifted in place whatever y is (the spec's
decision D9; log 3). -/
def Obligations.ShiftsWriteShiftedValueThenBitShiftedOut : Prop :=
  ∀ (x y : RegIdx) (s : State),
    (EncodedAs (.shr x y) (0x8006 + x.val * 256 + y.val * 16) ∧ ∃ t, exec (.shr x y) s = .next t ∧
      (∀ r, (t.readReg r).toNat =
        if r = 0xF then (s.readReg x).toNat % 2
        else if r = x then (s.readReg x).toNat / 2
        else (s.readReg r).toNat) ∧
      OnlyChanges [.registers] s t) ∧
    (EncodedAs (.shl x y) (0x800E + x.val * 256 + y.val * 16) ∧ ∃ t, exec (.shl x y) s = .next t ∧
      (∀ r, (t.readReg r).toNat =
        if r = 0xF then (s.readReg x).toNat / 128
        else if r = x then (s.readReg x).toNat * 2 % 256
        else (s.readReg r).toNat) ∧
      OnlyChanges [.registers] s t)

/-- 42_alu.md section 4: the result is the draw AND nn, so every bit that is 0 in nn is 0 in it and it is at most nn;
one draw is consumed, and none by any other instruction. The draw is the free value `Config.randSeq`, which has no
body: the statement holds whatever it is. That draws are numbered by `State.draws` is the model's choice
(log 2). -/
def Obligations.RandomWritesOneDrawMasked : Prop :=
  (∀ (x : RegIdx) (nn : Byte) (s : State), EncodedAs (.rnd x nn) (0xC000 + x.val * 256 + nn.toNat) ∧
    ∃ t, exec (.rnd x nn) s = .next t ∧
      (∀ r, t.readReg r = if r = x then Config.randSeq s.draws &&& nn else s.readReg r) ∧
      t.readReg x &&& ~~~nn = 0 ∧ (t.readReg x).toNat ≤ nn.toNat ∧
      t.draws = s.draws + 1 ∧ OnlyChanges [.registers, .draws] s t) ∧
  (∀ (i : Instr) (s t : State), exec i s = .next t → (∀ x nn, i ≠ .rnd x nn) → t.draws = s.draws)

/-! ### Control transfer -/

/-- 41_flow.md R122 and R128: the target is kept as it is, odd or above 0xFFF. -/
def Obligations.JumpsSetTheProgramCounter : Prop :=
  ∀ (nnn : Addr12) (s : State),
    (EncodedAs (.jp nnn) (0x1000 + nnn.toNat) ∧ ∃ t, exec (.jp nnn) s = .next t ∧ t.pc.toNat = nnn.toNat ∧
      OnlyChanges [.counter] s t) ∧
    (EncodedAs (.jpV0 nnn) (0xB000 + nnn.toNat) ∧ ∃ t, exec (.jpV0 nnn) s = .next t ∧
      t.pc.toNat = nnn.toNat + (s.readReg 0).toNat ∧ OnlyChanges [.counter] s t)

/-- 41_flow.md R123: below depth 16 the pre-advanced `pc` is pushed and `pc` takes the target; at depth 16 the call
raises StackOverflow and does nothing else. That sp is the depth and the entry at sp is written is the spec's decision
D5; the record and the kept pre-advance are its D4 (log 14). -/
def Obligations.CallPushesOrOverflows : Prop :=
  ∀ (nnn : Addr12) (s : State), EncodedAs (.call nnn) (0x2000 + nnn.toNat) ∧
    (s.sp.val < 16 → ∃ t, exec (.call nnn) s = .next t ∧ t.pc.toNat = nnn.toNat ∧
      t.sp.val = s.sp.val + 1 ∧
      (∀ j : Fin 16, t.stack[j.val] = if j.val = s.sp.val then s.pc else s.stack[j.val]) ∧
      OnlyChanges [.stack, .depth, .counter] s t) ∧
    (s.sp = 16 → ∃ t, exec (.call nnn) s = .next t ∧ TakesFault (.call nnn) .stackOverflow 0 s t)

/-- 41_flow.md R121: above depth 0 the top entry goes to `pc`, the entry itself stays; at depth 0 the return raises
StackUnderflow and does nothing else. That sp is the depth and a popped entry keeps its value is the spec's decision D5;
the record and the kept pre-advance are its D4 (log 14). -/
def Obligations.ReturnPopsOrUnderflows : Prop :=
  encodeWord .ret = 0x00EE ∧ decodeWord 0x00EE = .instr .ret ∧
  ∀ s : State,
    (∀ d : Fin 16, s.sp.val = d.val + 1 → ∃ t, exec .ret s = .next t ∧ t.pc = s.stack[d.val] ∧
      t.sp.val = d.val ∧ OnlyChanges [.depth, .counter] s t) ∧
    (s.sp = 0 → ∃ t, exec .ret s = .next t ∧ TakesFault .ret .stackUnderflow 0 s t)

/-- A return whose stack is as the call left it resumes at the instruction after the call, at the depth before it
(the organisation of the stack is the spec's decision D5; log 14). -/
def Obligations.ReturnResumesAfterCall : Prop :=
  ∀ (nnn : Addr12) (s t u : State), s.sp.val < 16 → exec (.call nnn) s = .next t →
    u.stack = t.stack → u.sp = t.sp → ∃ v, exec .ret u = .next v ∧ v.pc = s.pc ∧ v.sp = s.sp

/-- 41_flow.md R124 to R127: each pair of skips is complementary, and a skip adds exactly 2. -/
def Obligations.CompareSkipsAddTwo : Prop :=
  ∀ (x y : RegIdx) (nn : Byte) (s : State),
    (EncodedAs (.seImm x nn) (0x3000 + x.val * 256 + nn.toNat) ∧ ∃ t, exec (.seImm x nn) s = .next t ∧
      t.pc = (if s.readReg x = nn then s.pc + 2 else s.pc) ∧ OnlyChanges [.counter] s t) ∧
    (EncodedAs (.sneImm x nn) (0x4000 + x.val * 256 + nn.toNat) ∧ ∃ t, exec (.sneImm x nn) s = .next t ∧
      t.pc = (if s.readReg x = nn then s.pc else s.pc + 2) ∧ OnlyChanges [.counter] s t) ∧
    (EncodedAs (.seReg x y) (0x5000 + x.val * 256 + y.val * 16) ∧ ∃ t, exec (.seReg x y) s = .next t ∧
      t.pc = (if s.readReg x = s.readReg y then s.pc + 2 else s.pc) ∧ OnlyChanges [.counter] s t) ∧
    (EncodedAs (.sneReg x y) (0x9000 + x.val * 256 + y.val * 16) ∧ ∃ t, exec (.sneReg x y) s = .next t ∧
      t.pc = (if s.readReg x = s.readReg y then s.pc else s.pc + 2) ∧ OnlyChanges [.counter] s t)

/-- 45_keypad_timers.md R170, R171 and R176: a key is pressed when its code is the value of Vx and its bit is set; a
value above 15 is the code of no key (the spec's decision D12; log 14). -/
def Obligations.KeySkipsFollowTheKeypad : Prop :=
  ∀ (x : RegIdx) (s : State),
    EncodedAs (.skp x) (0xE09E + x.val * 256) ∧ EncodedAs (.sknp x) (0xE0A1 + x.val * 256) ∧
    ∃ t u, exec (.skp x) s = .next t ∧ exec (.sknp x) s = .next u ∧
      OnlyChanges [.counter] s t ∧ OnlyChanges [.counter] s u ∧
      ((∃ k : KeyCode, (s.readReg x).toNat = k.val ∧ s.key.getLsbD k.val = true) →
        t.pc = s.pc + 2 ∧ u.pc = s.pc) ∧
      ((¬∃ k : KeyCode, (s.readReg x).toNat = k.val ∧ s.key.getLsbD k.val = true) →
        t.pc = s.pc ∧ u.pc = s.pc + 2)

/-! ### Index register, loads and stores -/

/-- 43_index_memory.md R151 and R152: the addition wraps at 16 bits and writes no flag. -/
def Obligations.IndexLoadAndAddWriteOnlyI : Prop :=
  ∀ (x : RegIdx) (nnn : Addr12) (s : State),
    (EncodedAs (.ldI nnn) (0xA000 + nnn.toNat) ∧ ∃ t, exec (.ldI nnn) s = .next t ∧
      t.I.toNat = nnn.toNat ∧ OnlyChanges [.index] s t) ∧
    (EncodedAs (.addI x) (0xF01E + x.val * 256) ∧ ∃ t, exec (.addI x) s = .next t ∧
      t.I.toNat = (s.I.toNat + (s.readReg x).toNat) % 65536 ∧ OnlyChanges [.index] s t)

/-- 43_index_memory.md R153: the whole value is multiplied; that it is not masked to its low nibble is the spec's
decision D13 ("The whole 8-bit value of Vx is multiplied"). Over the values of one digit the addresses are those of
the 16 glyphs, 5 bytes apart, all inside the font area. -/
def Obligations.FontAddressIsFiveTimesTheValue : Prop :=
  ∀ (x : RegIdx) (s : State),
    EncodedAs (.ldF x) (0xF029 + x.val * 256) ∧ ∃ t, exec (.ldF x) s = .next t ∧
      t.I.toNat = (s.readReg x).toNat * 5 ∧
      ((s.readReg x).toNat ≤ 15 → t.I.toNat + 4 < Config.fontLength) ∧ OnlyChanges [.index] s t

/-- 43_index_memory.md R154: three digits at the effective address, every other byte as it was; or, when the range
leaves memory, the fault and nothing else. The fault, checked before any write, is the spec's decision D6 and the record
its D4 (log 14). -/
def Obligations.DecimalStoreWritesThreeDigits : Prop :=
  ∀ (x : RegIdx) (s : State), EncodedAs (.ldB x) (0xF033 + x.val * 256) ∧
    (MemoryCanonical s → s.dataAddress + 2 ≤ 0xFFF → ∃ t, exec (.ldB x) s = .next t ∧
      (Memory.read t.mem s.dataAddress).toNat = (s.readReg x).toNat / 100 ∧
      (Memory.read t.mem (s.dataAddress + 1)).toNat = (s.readReg x).toNat / 10 % 10 ∧
      (Memory.read t.mem (s.dataAddress + 2)).toNat = (s.readReg x).toNat % 10 ∧
      (∀ a, a < s.dataAddress ∨ s.dataAddress + 2 < a → Memory.read t.mem a = Memory.read s.mem a) ∧
      OnlyChanges [.memory] s t) ∧
    (0xFFF < s.dataAddress + 2 → ∃ t, exec (.ldB x) s = .next t ∧
      TakesFault (.ldB x) .addressOutOfRange (BitVec.ofNat 16 (max s.I.toNat 0x1000)) s t)

/-- 43_index_memory.md R155: V0 to Vx at ascending addresses, every other byte as it was; or, when the range leaves
memory, the fault and nothing stored. The fault, checked before any write, is the spec's decision D6 and the record its
D4 (log 14). -/
def Obligations.RegisterStoreWritesV0ToVx : Prop :=
  ∀ (x : RegIdx) (s : State), EncodedAs (.storeRegs x) (0xF055 + x.val * 256) ∧
    (MemoryCanonical s → s.dataAddress + x.val ≤ 0xFFF → ∃ t, exec (.storeRegs x) s = .next t ∧
      (∀ r : RegIdx, r.val ≤ x.val → Memory.read t.mem (s.dataAddress + r.val) = s.readReg r) ∧
      (∀ a, a < s.dataAddress ∨ s.dataAddress + x.val < a → Memory.read t.mem a = Memory.read s.mem a) ∧
      OnlyChanges [.memory] s t) ∧
    (0xFFF < s.dataAddress + x.val → ∃ t, exec (.storeRegs x) s = .next t ∧
      TakesFault (.storeRegs x) .addressOutOfRange (BitVec.ofNat 16 (max s.I.toNat 0x1000)) s t)

/-- 43_index_memory.md R156: V0 to Vx from ascending addresses, the registers above Vx as they were; or, when the
range leaves memory, the fault and nothing loaded. The fault, checked before any write, is the spec's decision D6 and
the record its D4 (log 14). -/
def Obligations.RegisterLoadReadsV0ToVx : Prop :=
  ∀ (x : RegIdx) (s : State), EncodedAs (.loadRegs x) (0xF065 + x.val * 256) ∧
    (s.dataAddress + x.val ≤ 0xFFF → ∃ t, exec (.loadRegs x) s = .next t ∧
      (∀ r : RegIdx, t.readReg r =
        if r.val ≤ x.val then Memory.read s.mem (s.dataAddress + r.val) else s.readReg r) ∧
      OnlyChanges [.registers] s t) ∧
    (0xFFF < s.dataAddress + x.val → ∃ t, exec (.loadRegs x) s = .next t ∧
      TakesFault (.loadRegs x) .addressOutOfRange (BitVec.ofNat 16 (max s.I.toNat 0x1000)) s t)

/-- The round trip of the source (43_index_memory.md R156): a load with the same index and x, from the memory a store
left, gives back the stored register values, whatever the registers held in between, and neither moves the index. -/
def Obligations.StoreThenLoadRestoresRegisters : Prop :=
  ∀ (x : RegIdx) (s t u : State), MemoryCanonical s → s.dataAddress + x.val ≤ 0xFFF →
    exec (.storeRegs x) s = .next t → u.mem = t.mem → u.I = t.I →
    ∃ v, exec (.loadRegs x) u = .next v ∧ v.I = s.I ∧
      (∀ r : RegIdx, r.val ≤ x.val → v.readReg r = s.readReg r) ∧
      (∀ r : RegIdx, x.val < r.val → v.readReg r = u.readReg r)

/-- 20_memory.md R71: a store over the next instruction is seen by the very next fetch, which reads the new bytes. -/
def Obligations.StoreIsSeenByTheNextFetch : Prop :=
  ∀ (x a b : RegIdx) (s t : State), MemoryCanonical s → s.dataAddress + x.val ≤ 0xFFF →
    b.val = a.val + 1 → b.val ≤ x.val → s.pc.toNat = s.dataAddress + a.val →
    exec (.storeRegs x) s = .next t → t.fetch = .word (joinBytes (s.readReg a) (s.readReg b))

/-! ### Display -/

/-- 44_display.md R163. -/
def Obligations.ClearScreenClearsAndSetsDirty : Prop :=
  encodeWord .cls = 0x00E0 ∧ decodeWord 0x00E0 = .instr .cls ∧
  ∀ s : State, ∃ t, exec .cls s = .next t ∧ (∀ py px, Framebuffer.pixel t.fb py px = false) ∧
    t.dirty = true ∧ OnlyChanges [.screen, .dirty] s t

/-- 44_display.md R162, whole: exactly the pixels the sprite's 1 bits land on are toggled, VF is 1 when one of them
was set and 0 otherwise, `dirty` is set, `I` and the other registers stay; or, when a sprite byte lies above 0xFFF, the
fault and nothing drawn. That rows are clipped and n = 0 draws nothing are the spec's decisions D10 and D11, the fault
is its D6 (log 14). -/
def Obligations.DrawTogglesTheSprite : Prop :=
  ∀ (x y : RegIdx) (n : RowCount) (s : State), EncodedAs (.drw x y n) (0xD000 + x.val * 256 + y.val * 16 + n.val) ∧
    (n.val = 0 ∨ s.dataAddress + n.val - 1 ≤ 0xFFF → ∃ t, exec (.drw x y n) s = .next t ∧
      (∀ py px, (SpriteCovers s x y n py px →
          Framebuffer.pixel t.fb py px = !Framebuffer.pixel s.fb py px) ∧
        (¬SpriteCovers s x y n py px → Framebuffer.pixel t.fb py px = Framebuffer.pixel s.fb py px)) ∧
      ((∃ py px, SpriteCovers s x y n py px ∧ Framebuffer.pixel s.fb py px = true) → t.readReg 0xF = 1) ∧
      ((¬∃ py px, SpriteCovers s x y n py px ∧ Framebuffer.pixel s.fb py px = true) → t.readReg 0xF = 0) ∧
      (∀ r, r ≠ 0xF → t.readReg r = s.readReg r) ∧ t.dirty = true ∧
      OnlyChanges [.registers, .screen, .dirty] s t) ∧
    (n.val ≠ 0 → 0xFFF < s.dataAddress + n.val - 1 → ∃ t, exec (.drw x y n) s = .next t ∧
      TakesFault (.drw x y n) .addressOutOfRange (BitVec.ofNat 16 (max s.I.toNat 0x1000)) s t)

/-- 44_display.md R164: the second of two identical draws, at the same place and of the same bytes, restores the
framebuffer; each sets `dirty`; the first has VF = 1 exactly when a pixel of the sprite was set before it, the second
exactly when one was clear before the first. -/
def Obligations.DrawingTwiceRestoresTheScreen : Prop :=
  ∀ (x y : RegIdx) (n : RowCount) (s t u : State), n.val = 0 ∨ s.dataAddress + n.val - 1 ≤ 0xFFF →
    exec (.drw x y n) s = .next t → u.fb = t.fb → u.I = s.I →
    u.readReg x = s.readReg x → u.readReg y = s.readReg y →
    (∀ row, row < n.val → Memory.read u.mem (s.I.toNat + row) = Memory.read s.mem (s.I.toNat + row)) →
    ∃ v, exec (.drw x y n) u = .next v ∧ v.fb = s.fb ∧ t.dirty = true ∧ v.dirty = true ∧
      (t.readReg 0xF = 1 ↔ ∃ py px, SpriteCovers s x y n py px ∧ Framebuffer.pixel s.fb py px = true) ∧
      (v.readReg 0xF = 1 ↔ ∃ py px, SpriteCovers s x y n py px ∧ Framebuffer.pixel s.fb py px = false)

/-! ### Keypad and timers -/

/-- 45_keypad_timers.md R173 to R175: DT is not changed by the read, and writing ST decides the sound predicate. -/
def Obligations.TimerMoves : Prop :=
  ∀ (x : RegIdx) (s : State),
    (EncodedAs (.ldFromDT x) (0xF007 + x.val * 256) ∧ ∃ t, exec (.ldFromDT x) s = .next t ∧
      (∀ r, t.readReg r = if r = x then s.DT else s.readReg r) ∧ OnlyChanges [.registers] s t) ∧
    (EncodedAs (.ldToDT x) (0xF015 + x.val * 256) ∧ ∃ t, exec (.ldToDT x) s = .next t ∧ t.DT = s.readReg x ∧
      OnlyChanges [.delayTimer] s t) ∧
    (EncodedAs (.ldToST x) (0xF018 + x.val * 256) ∧ ∃ t, exec (.ldToST x) s = .next t ∧ t.ST = s.readReg x ∧
      (soundActive t = true ↔ s.readReg x ≠ 0) ∧ OnlyChanges [.soundTimer] s t)

/-- 45_keypad_timers.md R172 and 60_exceptions.md R213: the instruction writes `wait` alone; then steps do nothing, a
release does not end the wait, and the first press, of any key, gives its code to Vx and ends it, `pc` staying where the
pre-advance left it. Of all operations none ends the wait but a press, a snapshot with a newly pressed key and reset: a
step, a tick, a release, `clear_dirty` and `load` leave it as it is, and `pc` with it (the spec's decisions D1, D2 and
D3; log 14). -/
def Obligations.WaitForKeyUntilPress : Prop :=
  ∀ (x : RegIdx) (s : State), EncodedAs (.ldKey x) (0xF00A + x.val * 256) ∧
    ∃ t, exec (.ldKey x) s = .next t ∧ t.wait = some x ∧ OnlyChanges [.wait] s t ∧
      (s.fault = none → step t = .next t ∧ (∀ k, (release k t).wait = some x) ∧
        (∀ k : KeyCode, (press k t).wait = none ∧ ((press k t).readReg x).toNat = k.val ∧
          (press k t).pc = s.pc ∧ (press k t).key.getLsbD k.val = true) ∧
        ∀ (o : HostOp) (u : State) (r : OpResult), applyOp o t = .next (u, r) →
          (u.wait = some x ∧ u.pc = s.pc) ∨ o = .reset ∨ (∃ k, o = .press k) ∨
            ∃ w, o = .setKeys w ∧ ∃ k : KeyCode, w.getLsbD k.val = true ∧ s.key.getLsbD k.val = false)

/-! ### Host operations -/

/-- 46_host_interface.md R185: a press sets its key; in mode WaitingForKey(r) it also writes the code to Vr and ends the
wait; in the other modes it does nothing else. That every press ends a wait is the spec's decision D2 (log 14). -/
def Obligations.PressSetsKeyAndEndsWait : Prop :=
  ∀ (k : KeyCode) (s : State),
    (∀ j : KeyCode, (press k s).key.getLsbD j.val = (s.key.getLsbD j.val || decide (j = k))) ∧
    (∀ r, s.mode = .waitingForKey r → (press k s).wait = none ∧
      (∀ q, (press k s).readReg q = if q = r then BitVec.ofNat 8 k.val else s.readReg q) ∧
      OnlyChanges [.keypad, .registers, .wait] s (press k s)) ∧
    ((∀ r, s.mode ≠ .waitingForKey r) → OnlyChanges [.keypad] s (press k s))

/-- 46_host_interface.md R186 and R188. That a release does nothing else is the spec's decision D2 (log 14). -/
def Obligations.ReleaseAndClearDirtyDoOneThing : Prop :=
  ∀ (k : KeyCode) (s : State),
    (∀ j : KeyCode, (release k s).key.getLsbD j.val = (s.key.getLsbD j.val && !decide (j = k))) ∧
    OnlyChanges [.keypad] s (release k s) ∧
    (clearDirty s).dirty = false ∧ OnlyChanges [.dirty] s (clearDirty s)

/-- 46_host_interface.md R187: afterwards the keypad is the snapshot; while the core waits, the lowest newly pressed key
is delivered and ends the wait, and a snapshot with no newly pressed key leaves it waiting
(the spec's decision D3; log 14). -/
def Obligations.SnapshotDeliversTheLowestNewKey : Prop :=
  ∀ (w : BitVec 16) (s : State),
    (setKeys w s).key = w ∧ OnlyChanges [.keypad, .registers, .wait] s (setKeys w s) ∧
    ((∀ r, s.mode ≠ .waitingForKey r) → OnlyChanges [.keypad] s (setKeys w s)) ∧
    (∀ r, s.mode = .waitingForKey r →
      (∀ k : KeyCode, w.getLsbD k.val = true → s.key.getLsbD k.val = false →
        (∀ j : KeyCode, j < k → w.getLsbD j.val = true → s.key.getLsbD j.val = true) →
        (setKeys w s).wait = none ∧
        ∀ q, (setKeys w s).readReg q = if q = r then BitVec.ofNat 8 k.val else s.readReg q) ∧
      ((∀ k : KeyCode, w.getLsbD k.val = true → s.key.getLsbD k.val = true) →
        OnlyChanges [.keypad] s (setKeys w s)))

/-- 46_host_interface.md R184, over any number of ticks: each timer is its value less the number of ticks, floored at 0,
in every mode (in mode Faulted by the spec's decision D16; log 14), and nothing else changes. -/
def Obligations.TicksCountDownToZero : Prop :=
  ∀ (k : Nat) (s : State), ∃ t, runOps (List.replicate k .advanceTimers) s = .next t ∧
    t.DT.toNat = s.DT.toNat - k ∧ t.ST.toNat = s.ST.toNat - k ∧
    OnlyChanges [.delayTimer, .soundTimer] s t

/-- 46_host_interface.md R182: a program that fits is copied to 0x200 and nothing else changes; one that would go past
the 4096 bytes is answered RomTooLarge and nothing at all is written. -/
def Obligations.LoadCopiesTheProgramOrNothing : Prop :=
  ∀ (bytes : List Byte) (s : State),
    (MemoryCanonical s → 0x200 + bytes.length ≤ 4096 → ∃ t, applyOp (.load bytes) s = .next (t, .ok) ∧
      (∀ k, k < bytes.length → Memory.read t.mem (0x200 + k) = bytes.getD k 0) ∧
      (∀ a, a < 0x200 ∨ 0x200 + bytes.length ≤ a → Memory.read t.mem a = Memory.read s.mem a) ∧
      OnlyChanges [.memory] s t) ∧
    (4096 < 0x200 + bytes.length → applyOp (.load bytes) s = .next (s, .romTooLarge))

/-- 70_reset_and_hazards.md R230 and R231: what reset leaves, from any state. The bytes of FONT enter only by the name
of the parameter. The random source is not touched: the count of draws, the model's own field, goes on (log 2).
Reset as an operation and the font in its memory are the spec's decisions D17 and D14 (log 1, log 14). -/
def Obligations.ResetLeavesTheStatedValues : Prop :=
  ∀ s : State, ∃ t, applyOp .reset s = .next (t, .none) ∧
    (∀ r, t.readReg r = 0) ∧ t.I = 0 ∧ t.pc = 0x0200 ∧ (∀ j : Fin 16, t.stack[j.val] = 0) ∧ t.sp = 0 ∧
    t.DT = 0 ∧ t.ST = 0 ∧ (∀ py px, Framebuffer.pixel t.fb py px = false) ∧ t.dirty = false ∧ t.key = 0 ∧
    t.wait = none ∧ t.fault = none ∧ t.mode = .running ∧
    (∀ a, a < 80 → Memory.read t.mem a = Config.font.getD a 0) ∧
    (∀ a, 80 ≤ a → a < 4096 → Memory.read t.mem a = 0) ∧ t.draws = s.draws ∧
    ∀ p, p ≠ .draws → Agree p State.reset t

/-! ### Whole-machine rules -/

/-- The frame of every instruction: it writes nothing outside the parts the spec's rules name for it, no register but
its destination and, where it writes a flag, VF (10_state.md R21, R23), no return address but the one at `sp`, and no
byte of memory outside the 3 (Fx33) or x + 1 (Fx55) from the effective address. It holds in every state, memory in
canonical form or not. That a push writes the entry at `sp` and a pop writes none (10_state.md R27, R28; 41_flow.md R123)
is the spec's decision D5, and that the fault register is a part of the state its D4 (log 14). The part `draws`, which
RND alone may write, is the model's own field (log 2). -/
def Obligations.InstructionsWriteOnlyTheirParts : Prop :=
  ∀ (i : Instr) (s t : State), exec i s = .next t →
    OnlyChanges (writtenParts i) s t ∧
    (∀ r : RegIdx, ¬WritesRegister i r → t.readReg r = s.readReg r) ∧
    (∀ j : Fin 16, j.val ≠ s.sp.val → t.stack[j.val] = s.stack[j.val]) ∧
    ∀ a : Nat, a < s.dataAddress ∨ s.dataAddress + storedLength i ≤ a →
      Memory.read t.mem a = Memory.read s.mem a

/-- 40_execution_cycle.md R115 and 45_keypad_timers.md R177: a step never changes the keypad, and no step moves a timer
but the execution of Fx15 or Fx18, which writes a register's value to it. -/
def Obligations.StepsNeverTickTimersNorTouchKeys : Prop :=
  ∀ s t : State, step s = .next t → t.key = s.key ∧
    (t.DT = s.DT ∨ ∃ x, NextInstr s (.ldToDT x) ∧ t.DT = s.readReg x) ∧
    (t.ST = s.ST ∨ ∃ x, NextInstr s (.ldToST x) ∧ t.ST = s.readReg x)

/-- 44_display.md R165: among all operations `dirty` is set by a step that executes 00E0 or Dxyn and by nothing else,
and cleared by `clear_dirty` and reset and by nothing else; pixels change only where it is set or at reset. -/
def Obligations.DirtyFlagProtocol : Prop :=
  ∀ (o : HostOp) (s t : State) (r : OpResult), applyOp o s = .next (t, r) →
    (s.dirty = false → t.dirty = true →
      o = .step ∧ (NextInstr s .cls ∨ ∃ x y n, NextInstr s (.drw x y n))) ∧
    (s.dirty = true → t.dirty = false → o = .clearDirty ∨ o = .reset) ∧
    (t.fb ≠ s.fb → t.dirty = true ∨ o = .reset)

/-- No instruction reads `dirty` or ST (10_state.md R30, R32): two states that differ in nothing else are taken by a
step to two states that differ in nothing else. For Cxnn the two runs get the same byte because draws are numbered by
`State.draws`, which they share: that is the model's choice (log 2). -/
def Obligations.DirtyAndSoundTimerAreNotRead : Prop :=
  ∀ (s t : State) (d : Bool) (b : Byte), step s = .next t →
    ∃ u, step { s with dirty := d, ST := b } = .next u ∧ t = { u with dirty := t.dirty, ST := t.ST }

/-- 60_exceptions.md R210: a step that faults leaves everything as it was but the fault register and the pre-advance of
`pc`, which a fetch fault comes before; the record names the address of the faulting instruction (the spec's
decision D4; log 14). -/
def Obligations.FaultsArePrecise : Prop :=
  ∀ (s t : State) (r : FaultRecord), s.fault = none → step s = .next t → t.fault = some r →
    r.epc = s.pc ∧ OnlyChanges [.counter, .fault] s t ∧
    ((s.pc.toNat + 1 ≤ 0xFFF ∧ t.pc = s.pc + 2 ∧ s.fetch = .word r.opcode) ∨
     (0xFFF < s.pc.toNat + 1 ∧ t.pc = s.pc ∧ r.opcode = 0 ∧ r.cause = .addressOutOfRange))

/-- 60_exceptions.md R200: which instructions raise which fault, and under which condition; no other can (the spec's
decisions D4 and D6; log 14). -/
def Obligations.OnlySixInstructionsRaiseFaults : Prop :=
  ∀ (i : Instr) (s t : State) (r : FaultRecord), s.fault = none → exec i s = .next t → t.fault = some r →
    (r.cause = .stackOverflow ∧ s.sp = 16 ∧ r.addr = 0 ∧ ∃ nnn, i = .call nnn) ∨
    (r.cause = .stackUnderflow ∧ s.sp = 0 ∧ r.addr = 0 ∧ i = .ret) ∨
    (r.cause = .addressOutOfRange ∧ r.addr.toNat = max s.I.toNat 0x1000 ∧
      ((∃ x y n, i = .drw x y n ∧ n.val ≠ 0 ∧ 0xFFF < s.I.toNat + n.val - 1) ∨
       (∃ x, i = .ldB x ∧ 0xFFF < s.I.toNat + 2) ∨
       (∃ x, (i = .storeRegs x ∨ i = .loadRegs x) ∧ 0xFFF < s.I.toNat + x.val)))

/-- 60_exceptions.md R209 and R211: the first fault stands through every schedule that holds no reset, and such a
schedule moves neither `pc` nor a register (the spec's decision D4; log 14). -/
def Obligations.FirstFaultStandsUntilReset : Prop :=
  ∀ (ops : List HostOp) (s t : State) (r : FaultRecord), s.fault = some r → HostOp.reset ∉ ops →
    runOps ops s = .next t → t.fault = some r ∧
      OnlyChanges [.delayTimer, .soundTimer, .dirty, .keypad, .memory] s t

/-- A safe run has only safe beginnings, as long as no reset comes after: a machine that is not faulted at the end was
not faulted before (60_exceptions.md R209). That a fault stands until reset is the spec's decision D4 (log 14). -/
def Obligations.SafeRunsHaveSafeBeginnings : Prop :=
  ∀ (before after : List HostOp) (s : State), HostOp.reset ∉ after → SafeRun (before ++ after) s →
    SafeRun before s

/-- 10_state.md R37: the mode is a function of `fault` and `wait`, and the transitions between modes are those listed
and no other: Fx0A enters a wait, a press (alone or in a snapshot) ends it, a raised fault faults a running core, and
reset makes any core run. Mode Faulted is the spec's decision D4 (log 14). -/
def Obligations.ModeTransitions : Prop :=
  (∀ s : State,
    (∀ c, s.mode = .faulted c ↔ ∃ r, s.fault = some r ∧ r.cause = c) ∧
    (∀ x, s.mode = .waitingForKey x ↔ s.fault = none ∧ s.wait = some x) ∧
    (s.mode = .running ↔ s.fault = none ∧ s.wait = none)) ∧
  State.reset.mode = .running ∧
  ∀ (o : HostOp) (s t : State) (r : OpResult), applyOp o s = .next (t, r) →
    (o = .reset → t.mode = .running) ∧
    (s.mode = .running → t.mode = .running ∨
      (o = .step ∧ ((∃ x, NextInstr s (.ldKey x) ∧ t.mode = .waitingForKey x) ∨
        ∃ c, t.mode = .faulted c ∧ r = .err c))) ∧
    (∀ x, s.mode = .waitingForKey x → t.mode = .waitingForKey x ∨
      (t.mode = .running ∧ (o = .reset ∨ (∃ k, o = .press k) ∨ ∃ w, o = .setKeys w))) ∧
    (∀ c, s.mode = .faulted c → t.mode = .faulted c ∨ (t.mode = .running ∧ o = .reset))

/-- 40_execution_cycle.md R117: a running core at a jump to its own address is left unchanged by every further step
(the definition of a halt is the spec's decision D25; log 14). -/
def Obligations.SelfJumpIsAFixedPoint : Prop :=
  ∀ (h : Addr12) (s : State), HaltedAt h s → step s = .next s

/-! ### Invariants -/

/-- The invariant holds after reset. The canonical form of memory is the model's own (log 13), the fault register the
spec's decision D4 (log 14). -/
def Obligations.InvariantHoldsAtReset : Prop := Invariant State.reset

/-- Every step keeps the invariant: memory canonical, fault and wait exclusive (10_state.md R37), the fault record legal
and precise (60_exceptions.md R200 to R203, R210), `pc` at most 0x10FE and return addresses at most 0x1000
(10_state.md R26). The canonical form is the model's own (log 13); the fault record rests on the spec's decisions D4 and
D6, the bounds of `pc` on its D8 (log 14). -/
def Obligations.StepKeepsTheInvariant : Prop :=
  ∀ s t : State, Invariant s → step s = .next t → Invariant t

/-- So does every schedule of host operations and steps. As there, the canonical form of memory is the model's own
(log 13), and the fault record and the bounds of `pc` rest on the spec's decisions D4, D6 and D8 (log 14). -/
def Obligations.SchedulesKeepTheInvariant : Prop :=
  ∀ (ops : List HostOp) (s t : State), Invariant s → runOps ops s = .next t → Invariant t
end

