-- ==== Sys2Proof/Laws/Decode.lean ====
section
/-! SUPPORT. The fields of a word built in a format of 30_encoding.md R91, and the two bytes of a word. -/

namespace Sys2Proof

theorem opClass_eq (w : Word) : opClass w = w.toNat / 4096 % 16 := by
  simp [opClass, BitVec.extractLsb'_toNat, Nat.shiftRight_eq_div_pow]

theorem fieldX_val (w : Word) : (fieldX w).val = w.toNat / 256 % 16 := by
  show (w.extractLsb' 8 4).toNat = _
  simp [BitVec.extractLsb'_toNat, Nat.shiftRight_eq_div_pow]

theorem fieldY_val (w : Word) : (fieldY w).val = w.toNat / 16 % 16 := by
  show (w.extractLsb' 4 4).toNat = _
  simp [BitVec.extractLsb'_toNat, Nat.shiftRight_eq_div_pow]

theorem fieldN_val (w : Word) : (fieldN w).val = w.toNat % 16 := by
  show (w.extractLsb' 0 4).toNat = _
  simp [BitVec.extractLsb'_toNat]

theorem fieldNN_toNat (w : Word) : (fieldNN w).toNat = w.toNat % 256 := by
  simp [fieldNN, BitVec.extractLsb'_toNat]

theorem fieldNNN_toNat (w : Word) : (fieldNNN w).toNat = w.toNat % 4096 := by
  simp [fieldNNN, BitVec.extractLsb'_toNat]

theorem toNat_formatNNN (c : BitVec 4) (nnn : Addr12) :
    (formatNNN c nnn).toNat = c.toNat * 4096 + nnn.toNat := by
  rw [formatNNN, BitVec.toNat_append, ← Nat.shiftLeft_add_eq_or_of_lt nnn.isLt, Nat.shiftLeft_eq]

theorem toNat_formatXNN (c : BitVec 4) (x : RegIdx) (nn : Byte) :
    (formatXNN c x nn).toNat = c.toNat * 4096 + x.val * 256 + nn.toNat := by
  have hx : (nibble x).toNat = x.val := rfl
  rw [formatXNN, BitVec.toNat_append, ← Nat.shiftLeft_add_eq_or_of_lt nn.isLt, BitVec.toNat_append,
    ← Nat.shiftLeft_add_eq_or_of_lt (nibble x).isLt, hx, Nat.shiftLeft_eq, Nat.shiftLeft_eq]
  omega

theorem toNat_formatXYN (c : BitVec 4) (x y : RegIdx) (n : BitVec 4) :
    (formatXYN c x y n).toNat = c.toNat * 4096 + x.val * 256 + y.val * 16 + n.toNat := by
  have hx : (nibble x).toNat = x.val := rfl
  have hy : (nibble y).toNat = y.val := rfl
  rw [formatXYN, BitVec.toNat_append, ← Nat.shiftLeft_add_eq_or_of_lt n.isLt, BitVec.toNat_append,
    ← Nat.shiftLeft_add_eq_or_of_lt (nibble y).isLt, BitVec.toNat_append,
    ← Nat.shiftLeft_add_eq_or_of_lt (nibble x).isLt, hx, hy]
  simp only [Nat.shiftLeft_eq]
  omega

/-- The two bytes of a word, joined, are the word. -/
theorem joinBytes_high_low (w : Word) : joinBytes (highByte w) (lowByte w) = w := by
  apply BitVec.eq_of_toNat_eq
  rw [joinBytes, BitVec.toNat_append, ← Nat.shiftLeft_add_eq_or_of_lt (lowByte w).isLt]
  simp only [highByte, lowByte, BitVec.extractLsb'_toNat, Nat.shiftLeft_eq, Nat.shiftRight_eq_div_pow]
  have := w.isLt
  omega

/-! ### The fields of a word built in a format -/

theorem opClass_formatNNN (c : BitVec 4) (nnn : Addr12) : opClass (formatNNN c nnn) = c.toNat := by
  rw [opClass_eq, toNat_formatNNN]
  have := nnn.isLt
  have := c.isLt
  omega

theorem fieldNNN_formatNNN (c : BitVec 4) (nnn : Addr12) : fieldNNN (formatNNN c nnn) = nnn := by
  apply BitVec.eq_of_toNat_eq
  rw [fieldNNN_toNat, toNat_formatNNN]
  have := nnn.isLt
  omega

theorem opClass_formatXNN (c : BitVec 4) (x : RegIdx) (nn : Byte) : opClass (formatXNN c x nn) = c.toNat := by
  rw [opClass_eq, toNat_formatXNN]
  have := nn.isLt
  have := c.isLt
  omega

theorem fieldX_formatXNN (c : BitVec 4) (x : RegIdx) (nn : Byte) : fieldX (formatXNN c x nn) = x := by
  apply Fin.ext
  rw [fieldX_val, toNat_formatXNN]
  have := nn.isLt
  omega

theorem fieldNN_formatXNN (c : BitVec 4) (x : RegIdx) (nn : Byte) : fieldNN (formatXNN c x nn) = nn := by
  apply BitVec.eq_of_toNat_eq
  rw [fieldNN_toNat, toNat_formatXNN]
  have := nn.isLt
  omega

theorem opClass_formatXYN (c : BitVec 4) (x y : RegIdx) (n : BitVec 4) :
    opClass (formatXYN c x y n) = c.toNat := by
  rw [opClass_eq, toNat_formatXYN]
  have := n.isLt
  have := c.isLt
  omega

theorem fieldX_formatXYN (c : BitVec 4) (x y : RegIdx) (n : BitVec 4) : fieldX (formatXYN c x y n) = x := by
  apply Fin.ext
  rw [fieldX_val, toNat_formatXYN]
  have := n.isLt
  omega

theorem fieldY_formatXYN (c : BitVec 4) (x y : RegIdx) (n : BitVec 4) : fieldY (formatXYN c x y n) = y := by
  apply Fin.ext
  rw [fieldY_val, toNat_formatXYN]
  have := n.isLt
  omega

theorem fieldN_formatXYN (c : BitVec 4) (x y : RegIdx) (n : BitVec 4) :
    (fieldN (formatXYN c x y n)).val = n.toNat := by
  rw [fieldN_val, toNat_formatXYN]
  have := n.isLt
  omega

/-! ### A word rebuilt from its fields -/

theorem formatNNN_of_fields (w : Word) (c : BitVec 4) (h : opClass w = c.toNat) :
    formatNNN c (fieldNNN w) = w := by
  apply BitVec.eq_of_toNat_eq
  rw [opClass_eq] at h
  rw [toNat_formatNNN, fieldNNN_toNat]
  have := w.isLt
  omega

theorem formatXNN_of_fields (w : Word) (c : BitVec 4) (f : Byte) (h : opClass w = c.toNat)
    (hf : (fieldNN w).toNat = f.toNat) : formatXNN c (fieldX w) f = w := by
  apply BitVec.eq_of_toNat_eq
  rw [opClass_eq] at h
  rw [fieldNN_toNat] at hf
  rw [toNat_formatXNN, fieldX_val]
  have := w.isLt
  omega

theorem formatXYN_of_fields (w : Word) (c f : BitVec 4) (h : opClass w = c.toNat)
    (hf : (fieldN w).val = f.toNat) : formatXYN c (fieldX w) (fieldY w) f = w := by
  apply BitVec.eq_of_toNat_eq
  rw [opClass_eq] at h
  rw [fieldN_val] at hf
  rw [toNat_formatXYN, fieldX_val, fieldY_val]
  have := w.isLt
  omega

end Sys2Proof
end

