-- ==== Sys2Proof/Laws/Memory.lean ====
section
/-! SUPPORT. The laws of memory: a read after a write, other bytes untouched, and the canonical form, which every
operation keeps and which makes equal memories equal data. -/

namespace Sys2Proof.Machine.Memory

/-! ### Rising addresses -/

@[simp] theorem rising_cons (lo a : Nat) (v : Byte) (m : Memory) :
    rising lo ((a, v) :: m) = true ↔ lo ≤ a ∧ rising (a + 1) m = true := by
  simp [rising]

theorem rising_weaken {lo lo' : Nat} {m : Memory} (h : rising lo m = true) (hle : lo' ≤ lo) :
    rising lo' m = true := by
  cases m with
  | nil => rfl
  | cons c m =>
    obtain ⟨a, v⟩ := c
    rw [rising_cons] at h ⊢
    exact ⟨by omega, h.2⟩

theorem read_below {lo q : Nat} {m : Memory} (h : rising lo m = true) (hq : q < lo) :
    read m q = unlisted q := by
  induction m generalizing lo with
  | nil => rfl
  | cons c m ih =>
    obtain ⟨a, v⟩ := c
    rw [rising_cons] at h
    rw [read, if_neg (by omega)]
    exact ih h.2 (by omega)

/-! ### One byte -/

theorem read_put {lo : Nat} {m : Memory} (h : rising lo m = true) (a b : Nat) (v : Byte) :
    read (put m a v) b = if b = a then v else read m b := by
  induction m generalizing lo with
  | nil =>
    rw [put]
    by_cases hv : v = unlisted a
    · rw [if_pos hv]
      by_cases hb : b = a
      · rw [if_pos hb, hb, hv, read]
      · rw [if_neg hb]
    · rw [if_neg hv]; rfl
  | cons c m ih =>
    obtain ⟨p, w⟩ := c
    rw [rising_cons] at h
    rw [put]
    by_cases hlt : a < p
    · rw [if_pos hlt]
      by_cases hv : v = unlisted a
      · rw [if_pos hv]
        by_cases hb : b = a
        · rw [if_pos hb, read, if_neg (by omega), read_below h.2 (by omega), hb, hv]
        · rw [if_neg hb]
      · rw [if_neg hv, read]
    · rw [if_neg hlt]
      by_cases heq : a = p
      · rw [if_pos heq]
        subst heq
        by_cases hv : v = unlisted a
        · rw [if_pos hv]
          by_cases hb : b = a
          · rw [if_pos hb, read_below h.2 (by omega), hb, hv]
          · rw [if_neg hb, read, if_neg hb]
        · rw [if_neg hv, read, read]
          by_cases hb : b = a
          · rw [if_pos hb, if_pos hb]
          · rw [if_neg hb, if_neg hb, if_neg hb]
      · rw [if_neg heq, read, ih h.2, read]
        by_cases hbp : b = p
        · rw [if_pos hbp, if_neg (by omega), if_pos hbp]
        · rw [if_neg hbp, if_neg hbp]

theorem rising_put {lo : Nat} {m : Memory} (h : rising lo m = true) (a : Nat) (v : Byte) (ha : lo ≤ a) :
    rising lo (put m a v) = true := by
  induction m generalizing lo with
  | nil =>
    rw [put]
    split
    · rfl
    · exact (rising_cons ..).mpr ⟨ha, rfl⟩
  | cons c m ih =>
    obtain ⟨p, w⟩ := c
    have hc := h
    rw [rising_cons] at h
    rw [put]
    split
    · split
      · exact hc
      · exact (rising_cons ..).mpr ⟨ha, (rising_cons ..).mpr ⟨by omega, h.2⟩⟩
    · split
      · split
        · exact rising_weaken h.2 (by omega)
        · exact (rising_cons ..).mpr ⟨ha, by subst_vars; exact h.2⟩
      · exact (rising_cons ..).mpr ⟨h.1, ih h.2 (by omega)⟩

/-- A write leaves every other byte alone, in any list, canonical or not. -/
theorem read_put_other (m : Memory) {a b : Nat} (v : Byte) (hb : b ≠ a) : read (put m a v) b = read m b := by
  have head : ∀ n : Memory, read ((a, v) :: n) b = read n b := fun n => by rw [read, if_neg hb]
  induction m with
  | nil =>
    rw [put]
    split
    · rfl
    · exact head []
  | cons c m ih =>
    obtain ⟨p, w⟩ := c
    rw [put]
    split
    · split
      · rfl
      · exact head _
    · split
      · rename_i hp
        have old : read ((p, w) :: m) b = read m b := by rw [read, if_neg (hp ▸ hb)]
        rw [old]
        split
        · rfl
        · exact head m
      · rw [read, read, ih]

/-- An entry of the list after a write is an old one, or the new one, which is not redundant. -/
theorem mem_put {m : Memory} {a : Nat} {v : Byte} {c : Host.Cell} (hc : c ∈ put m a v) :
    c ∈ m ∨ (c = (a, v) ∧ v ≠ unlisted a) := by
  induction m with
  | nil =>
    rw [put] at hc
    split at hc
    · simp at hc
    · exact .inr ⟨by simpa using hc, ‹_›⟩
  | cons d m ih =>
    obtain ⟨p, w⟩ := d
    rw [put] at hc
    split at hc
    · split at hc
      · exact .inl hc
      · obtain rfl | hc := List.mem_cons.mp hc
        · exact .inr ⟨rfl, ‹_›⟩
        · exact .inl hc
    · split at hc
      · split at hc
        · exact .inl (List.mem_cons_of_mem _ hc)
        · obtain rfl | hc := List.mem_cons.mp hc
          · exact .inr ⟨rfl, ‹_›⟩
          · exact .inl (List.mem_cons_of_mem _ hc)
      · obtain rfl | hc := List.mem_cons.mp hc
        · exact .inl List.mem_cons_self
        · exact (ih hc).imp_left (List.mem_cons_of_mem _)

/-! ### The canonical form -/

theorem wf_iff {m : Memory} :
    wf m = true ↔ rising 0 m = true ∧ ∀ c ∈ m, c.1 < Config.memSize ∧ c.2 ≠ unlisted c.1 := by
  simp [wf]

theorem wf_nil : wf [] = true := rfl

theorem wf_write {m : Memory} (h : wf m = true) (a : Nat) (v : Byte) : wf (write m a v) = true := by
  rw [write]
  split
  · rw [wf_iff] at h ⊢
    refine ⟨rising_put h.1 a v (Nat.zero_le a), fun c hc => ?_⟩
    obtain hc | ⟨rfl, hv⟩ := mem_put hc
    · exact h.2 c hc
    · exact ⟨‹_›, hv⟩
  · exact h

theorem read_write {m : Memory} (h : wf m = true) (a b : Nat) (v : Byte) (ha : a < Config.memSize) :
    read (write m a v) b = if b = a then v else read m b := by
  rw [write, if_pos ha, read_put (wf_iff.mp h).1]

theorem wf_writeBytes {m : Memory} (h : wf m = true) (a : Nat) (vs : List Byte) :
    wf (writeBytes m a vs) = true := by
  induction vs generalizing m a with
  | nil => exact h
  | cons v vs ih => exact ih (wf_write h a v) (a + 1)

/-- The bytes a multi-byte write stores are read back, and every other byte is as it was. -/
theorem read_writeBytes {m : Memory} (h : wf m = true) (a : Nat) (vs : List Byte)
    (ha : a + vs.length ≤ Config.memSize) (b : Nat) :
    read (writeBytes m a vs) b = if a ≤ b ∧ b < a + vs.length then vs.getD (b - a) 0 else read m b := by
  induction vs generalizing m a with
  | nil => rw [writeBytes, if_neg (by rw [List.length_nil]; omega)]
  | cons v vs ih =>
    rw [List.length_cons] at ha ⊢
    rw [writeBytes, ih (wf_write h a v) (a + 1) (by omega), read_write h a b v (by omega)]
    by_cases hb : b = a
    · subst hb
      rw [if_neg (by omega), if_pos rfl, if_pos (by omega), Nat.sub_self]
      rfl
    · by_cases hin : a + 1 ≤ b ∧ b < a + 1 + vs.length
      · rw [if_pos hin, if_pos (by omega), show b - a = (b - (a + 1)) + 1 by omega]
        rfl
      · rw [if_neg hin, if_neg hb, if_neg (by omega)]

theorem read_write_other (m : Memory) {a b : Nat} (v : Byte) (hb : b ≠ a) : read (write m a v) b = read m b := by
  rw [write]
  split
  · exact read_put_other m v hb
  · rfl

/-- A multi-byte write leaves every byte outside its range alone, in any list. -/
theorem read_writeBytes_other (m : Memory) (a : Nat) (vs : List Byte) {b : Nat} (hb : b < a ∨ a + vs.length ≤ b) :
    read (writeBytes m a vs) b = read m b := by
  induction vs generalizing m a with
  | nil => rfl
  | cons v vs ih =>
    rw [List.length_cons] at hb
    rw [writeBytes, ih _ (a + 1) (by omega), read_write_other m v (by omega)]

@[simp] theorem length_readBytes (m : Memory) (a n : Nat) : (readBytes m a n).length = n := by
  induction n generalizing a with
  | zero => rfl
  | succ n ih => rw [readBytes, List.length_cons, ih]

theorem getD_readBytes (m : Memory) (a n k : Nat) (hk : k < n) :
    (readBytes m a n).getD k 0 = read m (a + k) := by
  induction n generalizing a k with
  | zero => omega
  | succ n ih =>
    cases k with
    | zero => rfl
    | succ k =>
      rw [readBytes, List.getD_cons_succ, ih (a + 1) k (by omega)]
      congr 1
      omega

/-- Equal memories are equal data: two canonical lists that read the same are the same list. -/
theorem ext {m n : Memory} (hm : wf m = true) (hn : wf n = true) (h : ∀ a, read m a = read n a) : m = n := by
  suffices H : ∀ (m n : Memory) (lo : Nat), rising lo m = true → rising lo n = true →
      (∀ c ∈ m, c.2 ≠ unlisted c.1) → (∀ c ∈ n, c.2 ≠ unlisted c.1) → (∀ a, read m a = read n a) → m = n from
    H m n 0 (wf_iff.mp hm).1 (wf_iff.mp hn).1 (fun c hc => ((wf_iff.mp hm).2 c hc).2)
      (fun c hc => ((wf_iff.mp hn).2 c hc).2) h
  intro m
  induction m with
  | nil =>
    intro n lo _ hn _ cn h
    cases n with
    | nil => rfl
    | cons c n =>
      have := h c.1
      rw [read, read, if_pos rfl] at this
      exact absurd this.symm (cn c List.mem_cons_self)
  | cons c m ih =>
    intro n lo hm hn cm cn h
    obtain ⟨a, v⟩ := c
    rw [rising_cons] at hm
    have hv : v ≠ unlisted a := cm _ List.mem_cons_self
    cases n with
    | nil =>
      have := h a
      rw [read, read, if_pos rfl] at this
      exact absurd this hv
    | cons d n =>
      obtain ⟨b, w⟩ := d
      rw [rising_cons] at hn
      have hw : w ≠ unlisted b := cn _ List.mem_cons_self
      have hab : a = b := by
        rcases Nat.lt_trichotomy a b with hlt | heq | hlt
        · have := h a
          rw [read, if_pos rfl, read, if_neg (by omega), read_below hn.2 (by omega)] at this
          exact absurd this hv
        · exact heq
        · have := h b
          rw [read, if_neg (by omega), read_below hm.2 (by omega), read, if_pos rfl] at this
          exact absurd this.symm hw
      subst hab
      have hvw : v = w := by
        have := h a
        rwa [read, if_pos rfl, read, if_pos rfl] at this
      subst hvw
      refine congrArg _ (ih n (a + 1) hm.2 hn.2 (fun c hc => cm c (List.mem_cons_of_mem _ hc))
        (fun c hc => cn c (List.mem_cons_of_mem _ hc)) fun q => ?_)
      by_cases hq : q = a
      · subst hq
        rw [read_below hm.2 (by omega), read_below hn.2 (by omega)]
      · have := h q
        rwa [read, if_neg hq, read, if_neg hq] at this

end Sys2Proof.Machine.Memory
end

