-- ==== Sys2Proof/Laws/State.lean ====
section
/-! SUPPORT. One lemma per field per update of the state, true by rfl, so that no later proof unfolds a record
update; and what each register reads as after an update. -/

namespace Sys2Proof.Machine.State

variable (s : State)

/-! ### writeReg -/

@[simp] theorem writeReg_V (x : RegIdx) (b : Byte) : (s.writeReg x b).V = s.V.set x.val b := rfl
@[simp] theorem writeReg_I (x : RegIdx) (b : Byte) : (s.writeReg x b).I = s.I := rfl
@[simp] theorem writeReg_pc (x : RegIdx) (b : Byte) : (s.writeReg x b).pc = s.pc := rfl
@[simp] theorem writeReg_stack (x : RegIdx) (b : Byte) : (s.writeReg x b).stack = s.stack := rfl
@[simp] theorem writeReg_sp (x : RegIdx) (b : Byte) : (s.writeReg x b).sp = s.sp := rfl
@[simp] theorem writeReg_DT (x : RegIdx) (b : Byte) : (s.writeReg x b).DT = s.DT := rfl
@[simp] theorem writeReg_ST (x : RegIdx) (b : Byte) : (s.writeReg x b).ST = s.ST := rfl
@[simp] theorem writeReg_fb (x : RegIdx) (b : Byte) : (s.writeReg x b).fb = s.fb := rfl
@[simp] theorem writeReg_dirty (x : RegIdx) (b : Byte) : (s.writeReg x b).dirty = s.dirty := rfl
@[simp] theorem writeReg_key (x : RegIdx) (b : Byte) : (s.writeReg x b).key = s.key := rfl
@[simp] theorem writeReg_wait (x : RegIdx) (b : Byte) : (s.writeReg x b).wait = s.wait := rfl
@[simp] theorem writeReg_fault (x : RegIdx) (b : Byte) : (s.writeReg x b).fault = s.fault := rfl
@[simp] theorem writeReg_mem (x : RegIdx) (b : Byte) : (s.writeReg x b).mem = s.mem := rfl
@[simp] theorem writeReg_draws (x : RegIdx) (b : Byte) : (s.writeReg x b).draws = s.draws := rfl

/-! ### setPc -/

@[simp] theorem setPc_V (w : Word) : (s.setPc w).V = s.V := rfl
@[simp] theorem setPc_I (w : Word) : (s.setPc w).I = s.I := rfl
@[simp] theorem setPc_pc (w : Word) : (s.setPc w).pc = w := rfl
@[simp] theorem setPc_stack (w : Word) : (s.setPc w).stack = s.stack := rfl
@[simp] theorem setPc_sp (w : Word) : (s.setPc w).sp = s.sp := rfl
@[simp] theorem setPc_DT (w : Word) : (s.setPc w).DT = s.DT := rfl
@[simp] theorem setPc_ST (w : Word) : (s.setPc w).ST = s.ST := rfl
@[simp] theorem setPc_fb (w : Word) : (s.setPc w).fb = s.fb := rfl
@[simp] theorem setPc_dirty (w : Word) : (s.setPc w).dirty = s.dirty := rfl
@[simp] theorem setPc_key (w : Word) : (s.setPc w).key = s.key := rfl
@[simp] theorem setPc_wait (w : Word) : (s.setPc w).wait = s.wait := rfl
@[simp] theorem setPc_fault (w : Word) : (s.setPc w).fault = s.fault := rfl
@[simp] theorem setPc_mem (w : Word) : (s.setPc w).mem = s.mem := rfl
@[simp] theorem setPc_draws (w : Word) : (s.setPc w).draws = s.draws := rfl

/-! ### preAdvance -/

@[simp] theorem preAdvance_V : (s.preAdvance).V = s.V := rfl
@[simp] theorem preAdvance_I : (s.preAdvance).I = s.I := rfl
@[simp] theorem preAdvance_pc : (s.preAdvance).pc = s.pc + 2 := rfl
@[simp] theorem preAdvance_stack : (s.preAdvance).stack = s.stack := rfl
@[simp] theorem preAdvance_sp : (s.preAdvance).sp = s.sp := rfl
@[simp] theorem preAdvance_DT : (s.preAdvance).DT = s.DT := rfl
@[simp] theorem preAdvance_ST : (s.preAdvance).ST = s.ST := rfl
@[simp] theorem preAdvance_fb : (s.preAdvance).fb = s.fb := rfl
@[simp] theorem preAdvance_dirty : (s.preAdvance).dirty = s.dirty := rfl
@[simp] theorem preAdvance_key : (s.preAdvance).key = s.key := rfl
@[simp] theorem preAdvance_wait : (s.preAdvance).wait = s.wait := rfl
@[simp] theorem preAdvance_fault : (s.preAdvance).fault = s.fault := rfl
@[simp] theorem preAdvance_mem : (s.preAdvance).mem = s.mem := rfl
@[simp] theorem preAdvance_draws : (s.preAdvance).draws = s.draws := rfl

/-! ### setI -/

@[simp] theorem setI_V (w : Word) : (s.setI w).V = s.V := rfl
@[simp] theorem setI_I (w : Word) : (s.setI w).I = w := rfl
@[simp] theorem setI_pc (w : Word) : (s.setI w).pc = s.pc := rfl
@[simp] theorem setI_stack (w : Word) : (s.setI w).stack = s.stack := rfl
@[simp] theorem setI_sp (w : Word) : (s.setI w).sp = s.sp := rfl
@[simp] theorem setI_DT (w : Word) : (s.setI w).DT = s.DT := rfl
@[simp] theorem setI_ST (w : Word) : (s.setI w).ST = s.ST := rfl
@[simp] theorem setI_fb (w : Word) : (s.setI w).fb = s.fb := rfl
@[simp] theorem setI_dirty (w : Word) : (s.setI w).dirty = s.dirty := rfl
@[simp] theorem setI_key (w : Word) : (s.setI w).key = s.key := rfl
@[simp] theorem setI_wait (w : Word) : (s.setI w).wait = s.wait := rfl
@[simp] theorem setI_fault (w : Word) : (s.setI w).fault = s.fault := rfl
@[simp] theorem setI_mem (w : Word) : (s.setI w).mem = s.mem := rfl
@[simp] theorem setI_draws (w : Word) : (s.setI w).draws = s.draws := rfl

/-! ### setDT -/

@[simp] theorem setDT_V (b : Byte) : (s.setDT b).V = s.V := rfl
@[simp] theorem setDT_I (b : Byte) : (s.setDT b).I = s.I := rfl
@[simp] theorem setDT_pc (b : Byte) : (s.setDT b).pc = s.pc := rfl
@[simp] theorem setDT_stack (b : Byte) : (s.setDT b).stack = s.stack := rfl
@[simp] theorem setDT_sp (b : Byte) : (s.setDT b).sp = s.sp := rfl
@[simp] theorem setDT_DT (b : Byte) : (s.setDT b).DT = b := rfl
@[simp] theorem setDT_ST (b : Byte) : (s.setDT b).ST = s.ST := rfl
@[simp] theorem setDT_fb (b : Byte) : (s.setDT b).fb = s.fb := rfl
@[simp] theorem setDT_dirty (b : Byte) : (s.setDT b).dirty = s.dirty := rfl
@[simp] theorem setDT_key (b : Byte) : (s.setDT b).key = s.key := rfl
@[simp] theorem setDT_wait (b : Byte) : (s.setDT b).wait = s.wait := rfl
@[simp] theorem setDT_fault (b : Byte) : (s.setDT b).fault = s.fault := rfl
@[simp] theorem setDT_mem (b : Byte) : (s.setDT b).mem = s.mem := rfl
@[simp] theorem setDT_draws (b : Byte) : (s.setDT b).draws = s.draws := rfl

/-! ### setST -/

@[simp] theorem setST_V (b : Byte) : (s.setST b).V = s.V := rfl
@[simp] theorem setST_I (b : Byte) : (s.setST b).I = s.I := rfl
@[simp] theorem setST_pc (b : Byte) : (s.setST b).pc = s.pc := rfl
@[simp] theorem setST_stack (b : Byte) : (s.setST b).stack = s.stack := rfl
@[simp] theorem setST_sp (b : Byte) : (s.setST b).sp = s.sp := rfl
@[simp] theorem setST_DT (b : Byte) : (s.setST b).DT = s.DT := rfl
@[simp] theorem setST_ST (b : Byte) : (s.setST b).ST = b := rfl
@[simp] theorem setST_fb (b : Byte) : (s.setST b).fb = s.fb := rfl
@[simp] theorem setST_dirty (b : Byte) : (s.setST b).dirty = s.dirty := rfl
@[simp] theorem setST_key (b : Byte) : (s.setST b).key = s.key := rfl
@[simp] theorem setST_wait (b : Byte) : (s.setST b).wait = s.wait := rfl
@[simp] theorem setST_fault (b : Byte) : (s.setST b).fault = s.fault := rfl
@[simp] theorem setST_mem (b : Byte) : (s.setST b).mem = s.mem := rfl
@[simp] theorem setST_draws (b : Byte) : (s.setST b).draws = s.draws := rfl

/-! ### setWait -/

@[simp] theorem setWait_V (w : Option RegIdx) : (s.setWait w).V = s.V := rfl
@[simp] theorem setWait_I (w : Option RegIdx) : (s.setWait w).I = s.I := rfl
@[simp] theorem setWait_pc (w : Option RegIdx) : (s.setWait w).pc = s.pc := rfl
@[simp] theorem setWait_stack (w : Option RegIdx) : (s.setWait w).stack = s.stack := rfl
@[simp] theorem setWait_sp (w : Option RegIdx) : (s.setWait w).sp = s.sp := rfl
@[simp] theorem setWait_DT (w : Option RegIdx) : (s.setWait w).DT = s.DT := rfl
@[simp] theorem setWait_ST (w : Option RegIdx) : (s.setWait w).ST = s.ST := rfl
@[simp] theorem setWait_fb (w : Option RegIdx) : (s.setWait w).fb = s.fb := rfl
@[simp] theorem setWait_dirty (w : Option RegIdx) : (s.setWait w).dirty = s.dirty := rfl
@[simp] theorem setWait_key (w : Option RegIdx) : (s.setWait w).key = s.key := rfl
@[simp] theorem setWait_wait (w : Option RegIdx) : (s.setWait w).wait = w := rfl
@[simp] theorem setWait_fault (w : Option RegIdx) : (s.setWait w).fault = s.fault := rfl
@[simp] theorem setWait_mem (w : Option RegIdx) : (s.setWait w).mem = s.mem := rfl
@[simp] theorem setWait_draws (w : Option RegIdx) : (s.setWait w).draws = s.draws := rfl

/-! ### setKey -/

@[simp] theorem setKey_V (k : BitVec 16) : (s.setKey k).V = s.V := rfl
@[simp] theorem setKey_I (k : BitVec 16) : (s.setKey k).I = s.I := rfl
@[simp] theorem setKey_pc (k : BitVec 16) : (s.setKey k).pc = s.pc := rfl
@[simp] theorem setKey_stack (k : BitVec 16) : (s.setKey k).stack = s.stack := rfl
@[simp] theorem setKey_sp (k : BitVec 16) : (s.setKey k).sp = s.sp := rfl
@[simp] theorem setKey_DT (k : BitVec 16) : (s.setKey k).DT = s.DT := rfl
@[simp] theorem setKey_ST (k : BitVec 16) : (s.setKey k).ST = s.ST := rfl
@[simp] theorem setKey_fb (k : BitVec 16) : (s.setKey k).fb = s.fb := rfl
@[simp] theorem setKey_dirty (k : BitVec 16) : (s.setKey k).dirty = s.dirty := rfl
@[simp] theorem setKey_key (k : BitVec 16) : (s.setKey k).key = k := rfl
@[simp] theorem setKey_wait (k : BitVec 16) : (s.setKey k).wait = s.wait := rfl
@[simp] theorem setKey_fault (k : BitVec 16) : (s.setKey k).fault = s.fault := rfl
@[simp] theorem setKey_mem (k : BitVec 16) : (s.setKey k).mem = s.mem := rfl
@[simp] theorem setKey_draws (k : BitVec 16) : (s.setKey k).draws = s.draws := rfl

/-! ### setMem -/

@[simp] theorem setMem_V (m : Memory) : (s.setMem m).V = s.V := rfl
@[simp] theorem setMem_I (m : Memory) : (s.setMem m).I = s.I := rfl
@[simp] theorem setMem_pc (m : Memory) : (s.setMem m).pc = s.pc := rfl
@[simp] theorem setMem_stack (m : Memory) : (s.setMem m).stack = s.stack := rfl
@[simp] theorem setMem_sp (m : Memory) : (s.setMem m).sp = s.sp := rfl
@[simp] theorem setMem_DT (m : Memory) : (s.setMem m).DT = s.DT := rfl
@[simp] theorem setMem_ST (m : Memory) : (s.setMem m).ST = s.ST := rfl
@[simp] theorem setMem_fb (m : Memory) : (s.setMem m).fb = s.fb := rfl
@[simp] theorem setMem_dirty (m : Memory) : (s.setMem m).dirty = s.dirty := rfl
@[simp] theorem setMem_key (m : Memory) : (s.setMem m).key = s.key := rfl
@[simp] theorem setMem_wait (m : Memory) : (s.setMem m).wait = s.wait := rfl
@[simp] theorem setMem_fault (m : Memory) : (s.setMem m).fault = s.fault := rfl
@[simp] theorem setMem_mem (m : Memory) : (s.setMem m).mem = m := rfl
@[simp] theorem setMem_draws (m : Memory) : (s.setMem m).draws = s.draws := rfl

/-! ### setScreen -/

@[simp] theorem setScreen_V (f : Framebuffer) : (s.setScreen f).V = s.V := rfl
@[simp] theorem setScreen_I (f : Framebuffer) : (s.setScreen f).I = s.I := rfl
@[simp] theorem setScreen_pc (f : Framebuffer) : (s.setScreen f).pc = s.pc := rfl
@[simp] theorem setScreen_stack (f : Framebuffer) : (s.setScreen f).stack = s.stack := rfl
@[simp] theorem setScreen_sp (f : Framebuffer) : (s.setScreen f).sp = s.sp := rfl
@[simp] theorem setScreen_DT (f : Framebuffer) : (s.setScreen f).DT = s.DT := rfl
@[simp] theorem setScreen_ST (f : Framebuffer) : (s.setScreen f).ST = s.ST := rfl
@[simp] theorem setScreen_fb (f : Framebuffer) : (s.setScreen f).fb = f := rfl
@[simp] theorem setScreen_dirty (f : Framebuffer) : (s.setScreen f).dirty = true := rfl
@[simp] theorem setScreen_key (f : Framebuffer) : (s.setScreen f).key = s.key := rfl
@[simp] theorem setScreen_wait (f : Framebuffer) : (s.setScreen f).wait = s.wait := rfl
@[simp] theorem setScreen_fault (f : Framebuffer) : (s.setScreen f).fault = s.fault := rfl
@[simp] theorem setScreen_mem (f : Framebuffer) : (s.setScreen f).mem = s.mem := rfl
@[simp] theorem setScreen_draws (f : Framebuffer) : (s.setScreen f).draws = s.draws := rfl

/-! ### undirty -/

@[simp] theorem undirty_V : (s.undirty).V = s.V := rfl
@[simp] theorem undirty_I : (s.undirty).I = s.I := rfl
@[simp] theorem undirty_pc : (s.undirty).pc = s.pc := rfl
@[simp] theorem undirty_stack : (s.undirty).stack = s.stack := rfl
@[simp] theorem undirty_sp : (s.undirty).sp = s.sp := rfl
@[simp] theorem undirty_DT : (s.undirty).DT = s.DT := rfl
@[simp] theorem undirty_ST : (s.undirty).ST = s.ST := rfl
@[simp] theorem undirty_fb : (s.undirty).fb = s.fb := rfl
@[simp] theorem undirty_dirty : (s.undirty).dirty = false := rfl
@[simp] theorem undirty_key : (s.undirty).key = s.key := rfl
@[simp] theorem undirty_wait : (s.undirty).wait = s.wait := rfl
@[simp] theorem undirty_fault : (s.undirty).fault = s.fault := rfl
@[simp] theorem undirty_mem : (s.undirty).mem = s.mem := rfl
@[simp] theorem undirty_draws : (s.undirty).draws = s.draws := rfl

/-! ### countDraw -/

@[simp] theorem countDraw_V : (s.countDraw).V = s.V := rfl
@[simp] theorem countDraw_I : (s.countDraw).I = s.I := rfl
@[simp] theorem countDraw_pc : (s.countDraw).pc = s.pc := rfl
@[simp] theorem countDraw_stack : (s.countDraw).stack = s.stack := rfl
@[simp] theorem countDraw_sp : (s.countDraw).sp = s.sp := rfl
@[simp] theorem countDraw_DT : (s.countDraw).DT = s.DT := rfl
@[simp] theorem countDraw_ST : (s.countDraw).ST = s.ST := rfl
@[simp] theorem countDraw_fb : (s.countDraw).fb = s.fb := rfl
@[simp] theorem countDraw_dirty : (s.countDraw).dirty = s.dirty := rfl
@[simp] theorem countDraw_key : (s.countDraw).key = s.key := rfl
@[simp] theorem countDraw_wait : (s.countDraw).wait = s.wait := rfl
@[simp] theorem countDraw_fault : (s.countDraw).fault = s.fault := rfl
@[simp] theorem countDraw_mem : (s.countDraw).mem = s.mem := rfl
@[simp] theorem countDraw_draws : (s.countDraw).draws = s.draws + 1 := rfl

/-! ### takeFault -/

@[simp] theorem takeFault_V (c : Fault) (e o a : Word) : (s.takeFault c e o a).V = s.V := rfl
@[simp] theorem takeFault_I (c : Fault) (e o a : Word) : (s.takeFault c e o a).I = s.I := rfl
@[simp] theorem takeFault_pc (c : Fault) (e o a : Word) : (s.takeFault c e o a).pc = s.pc := rfl
@[simp] theorem takeFault_stack (c : Fault) (e o a : Word) : (s.takeFault c e o a).stack = s.stack := rfl
@[simp] theorem takeFault_sp (c : Fault) (e o a : Word) : (s.takeFault c e o a).sp = s.sp := rfl
@[simp] theorem takeFault_DT (c : Fault) (e o a : Word) : (s.takeFault c e o a).DT = s.DT := rfl
@[simp] theorem takeFault_ST (c : Fault) (e o a : Word) : (s.takeFault c e o a).ST = s.ST := rfl
@[simp] theorem takeFault_fb (c : Fault) (e o a : Word) : (s.takeFault c e o a).fb = s.fb := rfl
@[simp] theorem takeFault_dirty (c : Fault) (e o a : Word) : (s.takeFault c e o a).dirty = s.dirty := rfl
@[simp] theorem takeFault_key (c : Fault) (e o a : Word) : (s.takeFault c e o a).key = s.key := rfl
@[simp] theorem takeFault_wait (c : Fault) (e o a : Word) : (s.takeFault c e o a).wait = s.wait := rfl
@[simp] theorem takeFault_fault (c : Fault) (e o a : Word) : (s.takeFault c e o a).fault = some ⟨c, e, o, a⟩ := rfl
@[simp] theorem takeFault_mem (c : Fault) (e o a : Word) : (s.takeFault c e o a).mem = s.mem := rfl
@[simp] theorem takeFault_draws (c : Fault) (e o a : Word) : (s.takeFault c e o a).draws = s.draws := rfl

/-- Raising a fault in an instruction is taking it with the address and the word of that instruction
(60_exceptions.md R210). -/
@[simp] theorem raiseIn_eq (c : Fault) (i : Instr) (a : Word) :
    s.raiseIn c i a = s.takeFault c (s.pc - 2) (encodeWord i) a := rfl

/-! ### skipIf -/

@[simp] theorem skipIf_V (c : Bool) : (s.skipIf c).V = s.V := by cases c <;> rfl
@[simp] theorem skipIf_I (c : Bool) : (s.skipIf c).I = s.I := by cases c <;> rfl
@[simp] theorem skipIf_pc (c : Bool) : (s.skipIf c).pc = if c then s.pc + 2 else s.pc := by
  cases c <;> rfl
@[simp] theorem skipIf_stack (c : Bool) : (s.skipIf c).stack = s.stack := by cases c <;> rfl
@[simp] theorem skipIf_sp (c : Bool) : (s.skipIf c).sp = s.sp := by cases c <;> rfl
@[simp] theorem skipIf_DT (c : Bool) : (s.skipIf c).DT = s.DT := by cases c <;> rfl
@[simp] theorem skipIf_ST (c : Bool) : (s.skipIf c).ST = s.ST := by cases c <;> rfl
@[simp] theorem skipIf_fb (c : Bool) : (s.skipIf c).fb = s.fb := by cases c <;> rfl
@[simp] theorem skipIf_dirty (c : Bool) : (s.skipIf c).dirty = s.dirty := by cases c <;> rfl
@[simp] theorem skipIf_key (c : Bool) : (s.skipIf c).key = s.key := by cases c <;> rfl
@[simp] theorem skipIf_wait (c : Bool) : (s.skipIf c).wait = s.wait := by cases c <;> rfl
@[simp] theorem skipIf_fault (c : Bool) : (s.skipIf c).fault = s.fault := by cases c <;> rfl
@[simp] theorem skipIf_mem (c : Bool) : (s.skipIf c).mem = s.mem := by cases c <;> rfl
@[simp] theorem skipIf_draws (c : Bool) : (s.skipIf c).draws = s.draws := by cases c <;> rfl

/-! ### Registers as they are read -/

theorem readReg_writeReg (x r : RegIdx) (b : Byte) :
    (s.writeReg x b).readReg r = if r = x then b else s.readReg r := by
  unfold readReg
  simp only [writeReg_V, Vector.getElem_set, Fin.ext_iff, eq_comm]

@[simp] theorem readReg_writeReg_same (x : RegIdx) (b : Byte) : (s.writeReg x b).readReg x = b := by
  rw [readReg_writeReg, if_pos rfl]

theorem readReg_writeReg_other (x r : RegIdx) (b : Byte) (h : r ≠ x) :
    (s.writeReg x b).readReg r = s.readReg r := by
  rw [readReg_writeReg, if_neg h]

@[simp] theorem readReg_setPc (r : RegIdx) (w : Word) : (s.setPc w).readReg r = s.readReg r := rfl
@[simp] theorem readReg_preAdvance (r : RegIdx) : (s.preAdvance).readReg r = s.readReg r := rfl
@[simp] theorem readReg_setI (r : RegIdx) (w : Word) : (s.setI w).readReg r = s.readReg r := rfl
@[simp] theorem readReg_setDT (r : RegIdx) (b : Byte) : (s.setDT b).readReg r = s.readReg r := rfl
@[simp] theorem readReg_setST (r : RegIdx) (b : Byte) : (s.setST b).readReg r = s.readReg r := rfl
@[simp] theorem readReg_setWait (r : RegIdx) (w : Option RegIdx) : (s.setWait w).readReg r = s.readReg r := rfl
@[simp] theorem readReg_setKey (r : RegIdx) (k : BitVec 16) : (s.setKey k).readReg r = s.readReg r := rfl
@[simp] theorem readReg_setMem (r : RegIdx) (m : Memory) : (s.setMem m).readReg r = s.readReg r := rfl
@[simp] theorem readReg_setScreen (r : RegIdx) (f : Framebuffer) : (s.setScreen f).readReg r = s.readReg r := rfl
@[simp] theorem readReg_undirty (r : RegIdx) : (s.undirty).readReg r = s.readReg r := rfl
@[simp] theorem readReg_countDraw (r : RegIdx) : (s.countDraw).readReg r = s.readReg r := rfl
@[simp] theorem readReg_takeFault (r : RegIdx) (c : Fault) (e o a : Word) : (s.takeFault c e o a).readReg r = s.readReg r := rfl
@[simp] theorem readReg_skipIf (r : RegIdx) (c : Bool) : (s.skipIf c).readReg r = s.readReg r := by cases c <;> rfl

/-- What the result-then-flag order leaves in each register (10_state.md R23): VF holds the flag, whichever
register the result went to. -/
theorem readReg_writeResultFlag (x r : RegIdx) (b : Byte) (f : Bool) :
    (s.writeResultFlag x b f).readReg r = if r = regF then flagByte f else if r = x then b else s.readReg r := by
  rw [writeResultFlag, writeFlag, readReg_writeReg, readReg_writeReg]

/-- Two states with the same registers, as they are read, have the same register file. -/
theorem V_ext {s t : State} (h : ∀ r : RegIdx, t.readReg r = s.readReg r) : t.V = s.V := by
  apply Vector.ext
  intro k hk
  exact h ⟨k, hk⟩

end Sys2Proof.Machine.State
end

