-- ==== Sys2Proof/Laws/Ops.lean ====
section
/-! SUPPORT. One lemma for each shared operation that says what it can do. -/

namespace Sys2Proof.Machine

/-! ### The range check -/

/-- The check passes exactly when every byte of the range exists (20_memory.md R63). -/
theorem badAddress_none_iff (lo len : Nat) : badAddress lo len = none ↔ len = 0 ∨ lo + len ≤ Config.memSize := by
  unfold badAddress Config.memSize
  split
  · simp; omega
  · simp; omega

/-- It fails with the lowest invalid address of the range. -/
theorem badAddress_some_iff (lo len : Nat) (a : Word) :
    badAddress lo len = some a ↔ (0 < len ∧ Config.memSize < lo + len) ∧ a = BitVec.ofNat 16 (max lo 0x1000) := by
  unfold badAddress Config.memSize
  split
  · simp only [Option.some.injEq]
    constructor
    · rintro rfl; exact ⟨by omega, rfl⟩
    · rintro ⟨_, rfl⟩; rfl
  · simp; omega

/-- The recorded address lies between 0x1000 and 0xFFFF (60_exceptions.md R203). -/
theorem badAddress_ge {lo len : Nat} {a : Word} (hlo : lo < 65536) (h : badAddress lo len = some a) :
    0x1000 ≤ a.toNat := by
  obtain ⟨_, rfl⟩ := (badAddress_some_iff ..).mp h
  rw [BitVec.toNat_ofNat, Nat.mod_eq_of_lt (by omega)]
  omega

/-! ### The call stack -/

theorem push_eq_none_iff (s : State) (w : Word) : s.push w = none ↔ s.sp = 16 := by
  unfold State.push
  split
  · simp only [reduceCtorEq, false_iff]; rintro h; simp [h] at *
  · simp only [true_iff]; exact Fin.ext (by simp; omega)

/-- A push that succeeds writes one entry and the depth, and nothing else (10_state.md R28). -/
theorem push_eq_some {s t : State} {w : Word} (h : s.push w = some t) :
    ∃ hsp : s.sp.val < 16,
      t = { s with stack := s.stack.set s.sp.val w hsp, sp := ⟨s.sp.val + 1, by omega⟩ } := by
  unfold State.push at h
  split at h
  · exact ⟨‹_›, (Option.some.inj h).symm⟩
  · exact absurd h (by simp)

theorem push_of_lt (s : State) (w : Word) (hsp : s.sp.val < 16) :
    s.push w = some { s with stack := s.stack.set s.sp.val w hsp, sp := ⟨s.sp.val + 1, by omega⟩ } := by
  unfold State.push
  rw [dif_pos hsp]

theorem pop_eq_none_iff (s : State) : s.pop = none ↔ s.sp = 0 := by
  unfold State.pop
  split
  · rename_i h; simp [h]
  · rename_i h; simp [h, Fin.ext_iff]

/-- A pop that succeeds gives the top entry and lowers the depth, and changes nothing else
(10_state.md R28). -/
theorem pop_eq_some {s t : State} {w : Word} (h : s.pop = some (w, t)) :
    ∃ (d : Nat) (hd : d < 16), s.sp.val = d + 1 ∧ w = s.stack[d] ∧ t = { s with sp := ⟨d, by omega⟩ } := by
  unfold State.pop at h
  split at h
  · exact absurd h (by simp)
  · rename_i d hd hsp
    simp only [Option.some.injEq, Prod.mk.injEq] at h
    exact ⟨d, by omega, by rw [hsp], h.1.symm, h.2.symm⟩

theorem pop_of_pos (s : State) (d : Nat) (hd : d < 16) (hsp : s.sp.val = d + 1) :
    s.pop = some (s.stack[d], { s with sp := ⟨d, by omega⟩ }) := by
  have : s.sp = ⟨d + 1, by omega⟩ := Fin.ext hsp
  unfold State.pop
  split
  · rename_i h; rw [h] at this; simp at this
  · rename_i d' _ h
    rw [h] at this
    obtain rfl : d' = d := Nat.succ.inj (congrArg Fin.val this)
    rfl

/-! ### Registers in bulk -/

/-- The registers from `k` on take the bytes, the others keep their values. -/
theorem readReg_writeRegsFrom (k : Nat) (bs : List Byte) (s : State) (h : k + bs.length ≤ 16) (r : RegIdx) :
    (State.writeRegsFrom k bs s).readReg r =
      if k ≤ r.val ∧ r.val < k + bs.length then bs.getD (r.val - k) 0 else s.readReg r := by
  induction bs generalizing k s with
  | nil => rw [State.writeRegsFrom, if_neg (by rw [List.length_nil]; omega)]
  | cons b bs ih =>
    rw [List.length_cons] at h ⊢
    rw [State.writeRegsFrom, dif_pos (by omega), ih (k + 1) _ (by omega), State.readReg_writeReg]
    by_cases hr : r.val = k
    · rw [if_neg (by omega), if_pos (Fin.ext hr), if_pos (by omega), hr, Nat.sub_self]
      rfl
    · have hne : r ≠ ⟨k, by omega⟩ := fun e => hr (congrArg Fin.val e)
      by_cases hin : k + 1 ≤ r.val ∧ r.val < k + 1 + bs.length
      · rw [if_pos hin, if_pos (by omega), show r.val - k = (r.val - (k + 1)) + 1 by omega]
        rfl
      · rw [if_neg hin, if_neg hne, if_neg (by omega)]

/-- Writing registers in bulk writes the register file and nothing else. -/
theorem writeRegsFrom_eq (k : Nat) (bs : List Byte) (s : State) :
    State.writeRegsFrom k bs s = { s with V := (State.writeRegsFrom k bs s).V } := by
  induction bs generalizing k s with
  | nil => rfl
  | cons b bs ih =>
    rw [State.writeRegsFrom]
    split
    · rw [ih]
      rfl
    · rfl

@[simp] theorem length_regsUpTo (s : State) (x : RegIdx) : (s.regsUpTo x).length = x.val + 1 := by
  simp [State.regsUpTo]

theorem getD_regsUpTo (s : State) (x r : RegIdx) (h : r.val ≤ x.val) :
    (s.regsUpTo x).getD r.val 0 = s.readReg r := by
  rw [List.getD_eq_getElem _ _ (by rw [length_regsUpTo]; omega)]
  simp [State.regsUpTo, State.readReg]

/-! ### The mode -/

theorem mode_running_iff (s : State) : s.mode = .running ↔ s.fault = none ∧ s.wait = none := by
  unfold State.mode
  split <;> simp_all

theorem mode_waiting_iff (s : State) (r : RegIdx) :
    s.mode = .waitingForKey r ↔ s.fault = none ∧ s.wait = some r := by
  unfold State.mode
  split <;> simp_all

theorem mode_faulted_iff (s : State) (c : Fault) :
    s.mode = .faulted c ↔ ∃ r, s.fault = some r ∧ r.cause = c := by
  unfold State.mode
  split <;> simp_all

/-! ### The fetch -/

theorem fetch_of_le (s : State) (h : s.pc.toNat + 1 ≤ 0xFFF) :
    s.fetch = .word (joinBytes (Memory.read s.mem s.pc.toNat) (Memory.read s.mem (s.pc.toNat + 1))) := by
  unfold State.fetch
  rw [(badAddress_none_iff ..).mpr (by unfold Config.memSize; omega)]

theorem fetch_of_gt (s : State) (h : 0xFFF < s.pc.toNat + 1) :
    s.fetch = .outOfRange (BitVec.ofNat 16 (max s.pc.toNat 0x1000)) := by
  unfold State.fetch
  rw [(badAddress_some_iff ..).mpr ⟨⟨by omega, by unfold Config.memSize; omega⟩, rfl⟩]

/-! ### Pixels -/

theorem pixel_toggle (f : Framebuffer) (py qy : Fin 32) (px qx : Fin 64) :
    Framebuffer.pixel (Framebuffer.toggle f py px) qy qx =
      (Framebuffer.pixel f qy qx ^^ (decide (qy = py) && decide (qx = px))) := by
  unfold Framebuffer.pixel Framebuffer.toggle
  rw [Vector.getElem_set]
  by_cases hy : qy = py
  · subst hy
    simp only [if_pos, BitVec.getLsbD_xor, BitVec.getLsbD_shiftLeft, BitVec.getLsbD_one, decide_true,
      Bool.true_and]
    congr 1
    by_cases hx : qx = px
    · subst hx; simp
    · have : qx.val ≠ px.val := fun e => hx (Fin.ext e)
      simp only [decide_eq_false hx]
      simp
      omega
  · have : py.val ≠ qy.val := fun e => hy (Fin.ext e.symm)
    rw [if_neg this]
    simp [hy]

/-- Two framebuffers with the same pixels are equal. -/
theorem framebuffer_ext {f g : Framebuffer}
    (h : ∀ py px, Framebuffer.pixel f py px = Framebuffer.pixel g py px) : f = g := by
  apply Vector.ext
  intro i hi
  apply BitVec.eq_of_getLsbD_eq
  intro j hj
  exact h ⟨i, hi⟩ ⟨j, hj⟩

end Sys2Proof.Machine
end

