-- ==== Sys2Proof/Laws/Display.lean ====
section
/-! SUPPORT. What drawing does (44_display.md R162): which pixels a bit, a row and a sprite toggle, and when they
collide. -/

namespace Sys2Proof.Machine

/-- The columns of the eight bits of a sprite row are distinct: wrapping never makes two bits meet. -/
theorem spriteColumn_injective (x0 : Nat) : Function.Injective (spriteColumn x0) := by
  intro a b h
  have := congrArg Fin.val h
  simp only [spriteColumn] at this
  exact Fin.ext (by omega)

/-- One bit toggles its pixel when it is 1, and touches no other. -/
theorem pixel_drawBit (py : Fin 32) (x0 : Nat) (b : Byte) (acc : Framebuffer × Bool) (bit : Fin 8)
    (qy : Fin 32) (qx : Fin 64) :
    (spriteBit b bit = true ∧ qy = py ∧ qx = spriteColumn x0 bit →
      Framebuffer.pixel (drawBit py x0 b acc bit).1 qy qx = !Framebuffer.pixel acc.1 qy qx) ∧
    (¬(spriteBit b bit = true ∧ qy = py ∧ qx = spriteColumn x0 bit) →
      Framebuffer.pixel (drawBit py x0 b acc bit).1 qy qx = Framebuffer.pixel acc.1 qy qx) := by
  unfold drawBit
  split
  · rename_i hb
    simp only [pixel_toggle]
    refine ⟨fun h => by simp [h.2.1, h.2.2], fun h => ?_⟩
    simp only [hb, true_and] at h
    by_cases hy : qy = py
    · simp only [hy, true_and] at h
      simp [h]
    · simp [hy]
  · rename_i hb
    exact ⟨fun h => absurd h.1 hb, fun _ => rfl⟩

/-- Several bits of a row, each at most once, toggle the pixels of their 1 bits and no other. -/
theorem pixel_foldl_drawBit (py : Fin 32) (x0 : Nat) (b : Byte) (bits : List (Fin 8)) (hn : bits.Nodup)
    (acc : Framebuffer × Bool) (qy : Fin 32) (qx : Fin 64) :
    ((qy = py ∧ ∃ bit ∈ bits, spriteBit b bit = true ∧ qx = spriteColumn x0 bit) →
      Framebuffer.pixel (bits.foldl (drawBit py x0 b) acc).1 qy qx = !Framebuffer.pixel acc.1 qy qx) ∧
    (¬(qy = py ∧ ∃ bit ∈ bits, spriteBit b bit = true ∧ qx = spriteColumn x0 bit) →
      Framebuffer.pixel (bits.foldl (drawBit py x0 b) acc).1 qy qx = Framebuffer.pixel acc.1 qy qx) := by
  induction bits generalizing acc with
  | nil => exact ⟨fun h => by simp at h, fun _ => rfl⟩
  | cons c bits ih =>
    obtain ⟨hc, hn⟩ := List.nodup_cons.mp hn
    rw [List.foldl_cons]
    have hbit := pixel_drawBit py x0 b acc c qy qx
    have hrest := ih hn (drawBit py x0 b acc c)
    by_cases hhit : spriteBit b c = true ∧ qy = py ∧ qx = spriteColumn x0 c
    · have hnone : ¬(qy = py ∧ ∃ bit ∈ bits, spriteBit b bit = true ∧ qx = spriteColumn x0 bit) := by
        rintro ⟨_, bit, hm, _, hx⟩
        exact hc (spriteColumn_injective x0 (hhit.2.2.symm.trans hx) ▸ hm)
      refine ⟨fun _ => by rw [hrest.2 hnone, hbit.1 hhit], fun h => absurd ?_ h⟩
      exact ⟨hhit.2.1, c, List.mem_cons_self, hhit.1, hhit.2.2⟩
    · have hiff : (qy = py ∧ ∃ bit ∈ c :: bits, spriteBit b bit = true ∧ qx = spriteColumn x0 bit) ↔
          (qy = py ∧ ∃ bit ∈ bits, spriteBit b bit = true ∧ qx = spriteColumn x0 bit) := by
        constructor
        · rintro ⟨hy, bit, hm, hb, hx⟩
          obtain rfl | hm := List.mem_cons.mp hm
          · exact absurd ⟨hb, hy, hx⟩ hhit
          · exact ⟨hy, bit, hm, hb, hx⟩
        · rintro ⟨hy, bit, hm, hb, hx⟩
          exact ⟨hy, bit, List.mem_cons_of_mem _ hm, hb, hx⟩
      rw [hiff]
      exact ⟨fun h => by rw [hrest.1 h, hbit.2 hhit], fun h => by rw [hrest.2 h, hbit.2 hhit]⟩

/-- Their collision flag: it was set before, or a 1 bit falls on a pixel that was set before. -/
theorem collision_foldl_drawBit (py : Fin 32) (x0 : Nat) (b : Byte) (bits : List (Fin 8)) (hn : bits.Nodup)
    (acc : Framebuffer × Bool) :
    (bits.foldl (drawBit py x0 b) acc).2 = true ↔
      acc.2 = true ∨ ∃ bit ∈ bits, spriteBit b bit = true ∧
        Framebuffer.pixel acc.1 py (spriteColumn x0 bit) = true := by
  induction bits generalizing acc with
  | nil => simp
  | cons c bits ih =>
    obtain ⟨hc, hn⟩ := List.nodup_cons.mp hn
    rw [List.foldl_cons, ih hn]
    have hother : ∀ bit ∈ bits, Framebuffer.pixel (drawBit py x0 b acc c).1 py (spriteColumn x0 bit) =
        Framebuffer.pixel acc.1 py (spriteColumn x0 bit) := fun bit hm =>
      (pixel_drawBit py x0 b acc c py (spriteColumn x0 bit)).2 fun h =>
        hc (spriteColumn_injective x0 h.2.2 ▸ hm)
    have hfirst : (drawBit py x0 b acc c).2 = true ↔
        acc.2 = true ∨ (spriteBit b c = true ∧ Framebuffer.pixel acc.1 py (spriteColumn x0 c) = true) := by
      unfold drawBit
      split <;> simp_all
    rw [hfirst, or_assoc]
    refine or_congr_right ⟨?_, ?_⟩
    · rintro (h | ⟨bit, hm, hb, hp⟩)
      · exact ⟨c, List.mem_cons_self, h⟩
      · exact ⟨bit, List.mem_cons_of_mem _ hm, hb, hother bit hm ▸ hp⟩
    · rintro ⟨bit, hm, hb, hp⟩
      obtain rfl | hm := List.mem_cons.mp hm
      · exact .inl ⟨hb, hp⟩
      · exact .inr ⟨bit, hm, hb, (hother bit hm).symm ▸ hp⟩

theorem mem_spriteColumns (bit : Fin 8) : bit ∈ spriteColumns := by revert bit; decide

/-- One row toggles the pixels of its 1 bits in its row, if there is such a row, and no other. -/
theorem pixel_drawRow (py x0 : Nat) (b : Byte) (acc : Framebuffer × Bool) (qy : Fin 32) (qx : Fin 64) :
    ((qy.val = py ∧ ∃ bit, spriteBit b bit = true ∧ qx = spriteColumn x0 bit) →
      Framebuffer.pixel (drawRow py x0 b acc).1 qy qx = !Framebuffer.pixel acc.1 qy qx) ∧
    (¬(qy.val = py ∧ ∃ bit, spriteBit b bit = true ∧ qx = spriteColumn x0 bit) →
      Framebuffer.pixel (drawRow py x0 b acc).1 qy qx = Framebuffer.pixel acc.1 qy qx) := by
  unfold drawRow
  split
  · rename_i h
    have := pixel_foldl_drawBit ⟨py, by omega⟩ x0 b spriteColumns (by decide) acc qy qx
    simpa only [mem_spriteColumns, true_and, Fin.ext_iff (a := qy)] using this
  · exact ⟨fun hc => absurd hc.1 (by omega), fun _ => rfl⟩

theorem collision_drawRow (py x0 : Nat) (b : Byte) (acc : Framebuffer × Bool) :
    (drawRow py x0 b acc).2 = true ↔
      acc.2 = true ∨ ∃ qy : Fin 32, qy.val = py ∧ ∃ bit, spriteBit b bit = true ∧
        Framebuffer.pixel acc.1 qy (spriteColumn x0 bit) = true := by
  unfold drawRow
  split
  · rename_i h
    rw [collision_foldl_drawBit _ _ _ _ (by decide)]
    simp only [mem_spriteColumns, true_and]
    refine or_congr_right ⟨fun h' => ⟨⟨py, by omega⟩, rfl, h'⟩, ?_⟩
    rintro ⟨qy, rfl, h'⟩
    exact h'
  · refine ⟨.inl, ?_⟩
    rintro (h' | ⟨qy, hq, _⟩)
    · exact h'
    · omega

/-- Where the 1 bits of the rows of a sprite fall, its first row being row `py` of the screen. -/
def RowsCover (py x0 : Nat) (bytes : List Byte) (qy : Fin 32) (qx : Fin 64) : Prop :=
  ∃ row, row < bytes.length ∧ qy.val = py + row ∧
    ∃ bit, spriteBit (bytes.getD row 0) bit = true ∧ qx = spriteColumn x0 bit

theorem rowsCover_cons (py x0 : Nat) (b : Byte) (bs : List Byte) (qy : Fin 32) (qx : Fin 64) :
    RowsCover py x0 (b :: bs) qy qx ↔
      (qy.val = py ∧ ∃ bit, spriteBit b bit = true ∧ qx = spriteColumn x0 bit) ∨
        RowsCover (py + 1) x0 bs qy qx := by
  unfold RowsCover
  constructor
  · rintro ⟨row, hlt, hy, hx⟩
    cases row with
    | zero => exact .inl ⟨hy, hx⟩
    | succ row => exact .inr ⟨row, by simpa using hlt, by omega, hx⟩
  · rintro (⟨hy, hx⟩ | ⟨row, hlt, hy, hx⟩)
    · exact ⟨0, by simp, hy, hx⟩
    · exact ⟨row + 1, by simpa using hlt, by omega, hx⟩

/-- A sprite toggles the pixels its 1 bits fall on and no other. -/
theorem pixel_drawRows (py x0 : Nat) (bytes : List Byte) (acc : Framebuffer × Bool) (qy : Fin 32)
    (qx : Fin 64) :
    (RowsCover py x0 bytes qy qx →
      Framebuffer.pixel (drawRows py x0 bytes acc).1 qy qx = !Framebuffer.pixel acc.1 qy qx) ∧
    (¬RowsCover py x0 bytes qy qx →
      Framebuffer.pixel (drawRows py x0 bytes acc).1 qy qx = Framebuffer.pixel acc.1 qy qx) := by
  induction bytes generalizing py acc with
  | nil => exact ⟨fun ⟨row, h, _⟩ => absurd h (by simp), fun _ => rfl⟩
  | cons b bs ih =>
    have hrow := pixel_drawRow py x0 b acc qy qx
    have hrest := ih (py + 1) (drawRow py x0 b acc)
    rw [drawRows, rowsCover_cons]
    by_cases h : qy.val = py ∧ ∃ bit, spriteBit b bit = true ∧ qx = spriteColumn x0 bit
    · have hnot : ¬RowsCover (py + 1) x0 bs qy qx := fun ⟨row, _, hy, _⟩ => by omega
      exact ⟨fun _ => by rw [hrest.2 hnot, hrow.1 h], fun hc => absurd (.inl h) hc⟩
    · refine ⟨fun hc => ?_, fun hc => ?_⟩
      · rw [hrest.1 (hc.resolve_left h), hrow.2 h]
      · rw [hrest.2 fun hr => hc (.inr hr), hrow.2 h]

/-- The collision flag of a sprite: it was set before, or a 1 bit falls on a pixel that was set before. -/
theorem collision_drawRows (py x0 : Nat) (bytes : List Byte) (acc : Framebuffer × Bool) :
    (drawRows py x0 bytes acc).2 = true ↔
      acc.2 = true ∨ ∃ qy qx, RowsCover py x0 bytes qy qx ∧ Framebuffer.pixel acc.1 qy qx = true := by
  induction bytes generalizing py acc with
  | nil =>
    refine ⟨.inl, ?_⟩
    rintro (h | ⟨_, _, ⟨row, h, _⟩, _⟩)
    · exact h
    · exact absurd h (by simp)
  | cons b bs ih =>
    have hother : ∀ qy qx, RowsCover (py + 1) x0 bs qy qx →
        Framebuffer.pixel (drawRow py x0 b acc).1 qy qx = Framebuffer.pixel acc.1 qy qx :=
      fun qy qx ⟨row, _, hy, _⟩ => (pixel_drawRow py x0 b acc qy qx).2 fun h => by omega
    rw [drawRows, ih, collision_drawRow, or_assoc]
    refine or_congr_right ⟨?_, ?_⟩
    · rintro (⟨qy, hy, bit, hb, hp⟩ | ⟨qy, qx, hc, hp⟩)
      · exact ⟨qy, _, (rowsCover_cons ..).mpr (.inl ⟨hy, bit, hb, rfl⟩), hp⟩
      · exact ⟨qy, qx, (rowsCover_cons ..).mpr (.inr hc), hother qy qx hc ▸ hp⟩
    · rintro ⟨qy, qx, hc, hp⟩
      obtain ⟨hy, bit, hb, rfl⟩ | hc := (rowsCover_cons ..).mp hc
      · exact .inl ⟨qy, hy, bit, hb, hp⟩
      · exact .inr ⟨qy, qx, hc, (hother qy qx hc).symm ▸ hp⟩

end Sys2Proof.Machine
end

