-- ==== Sys2Proof/Laws/PerInstr.lean ====
section
/-! SUPPORT. Statements made for every instruction as syntax, one lemma per constructor. -/

namespace Sys2Proof.Laws

/-- The word of an instruction matches its row of the opcode table (30_encoding.md R94). -/
def EncodingMatchesRow.Statement (i : Instr) : Prop := (opcodeRow i).matchesWord (encodeWord i) = true

/-- The operands of an instruction are in the ranges of 30_encoding.md R92. -/
def WellFormedOperands.Statement (i : Instr) : Prop := i.wellFormed = true

/-! ### The fixed bits of each format -/

theorem matches_NNN (c : BitVec 4) (nnn : Addr12) :
    (OpcodeRow.mk 0xF000 (formatNNN c 0)).matchesWord (formatNNN c nnn) = true := by
  simp only [OpcodeRow.matchesWord, beq_iff_eq]
  apply BitVec.eq_of_getLsbD_eq
  intro k hk
  interval_cases k <;> simp only [formatNNN, BitVec.getLsbD_and, BitVec.getLsbD_append] <;> simp

theorem matches_XNN (c : BitVec 4) (x : RegIdx) (nn : Byte) :
    (OpcodeRow.mk 0xF000 (formatXNN c 0 0)).matchesWord (formatXNN c x nn) = true := by
  simp only [OpcodeRow.matchesWord, beq_iff_eq]
  apply BitVec.eq_of_getLsbD_eq
  intro k hk
  interval_cases k <;> simp only [formatXNN, nibble, BitVec.getLsbD_and, BitVec.getLsbD_append] <;> simp

theorem matches_X (c : BitVec 4) (x : RegIdx) (f : Byte) :
    (OpcodeRow.mk 0xF0FF (formatXNN c 0 f)).matchesWord (formatXNN c x f) = true := by
  simp only [OpcodeRow.matchesWord, beq_iff_eq]
  apply BitVec.eq_of_getLsbD_eq
  intro k hk
  interval_cases k <;> simp only [formatXNN, nibble, BitVec.getLsbD_and, BitVec.getLsbD_append] <;> simp

theorem matches_XY (c : BitVec 4) (x y : RegIdx) (f : BitVec 4) :
    (OpcodeRow.mk 0xF00F (formatXYN c 0 0 f)).matchesWord (formatXYN c x y f) = true := by
  simp only [OpcodeRow.matchesWord, beq_iff_eq]
  apply BitVec.eq_of_getLsbD_eq
  intro k hk
  interval_cases k <;> simp only [formatXYN, nibble, BitVec.getLsbD_and, BitVec.getLsbD_append] <;> simp

theorem matches_XYN (c : BitVec 4) (x y : RegIdx) (n : BitVec 4) :
    (OpcodeRow.mk 0xF000 (formatXYN c 0 0 0)).matchesWord (formatXYN c x y n) = true := by
  simp only [OpcodeRow.matchesWord, beq_iff_eq]
  apply BitVec.eq_of_getLsbD_eq
  intro k hk
  interval_cases k <;> simp only [formatXYN, nibble, BitVec.getLsbD_and, BitVec.getLsbD_append] <;> simp

/-! ### The word of each instruction matches its row -/

theorem EncodingMatchesRow.cls : EncodingMatchesRow.Statement .cls :=
  rfl
theorem EncodingMatchesRow.ret : EncodingMatchesRow.Statement .ret :=
  rfl
theorem EncodingMatchesRow.jp (nnn : Addr12) : EncodingMatchesRow.Statement (.jp nnn) :=
  matches_NNN ..
theorem EncodingMatchesRow.call (nnn : Addr12) : EncodingMatchesRow.Statement (.call nnn) :=
  matches_NNN ..
theorem EncodingMatchesRow.seImm (x : RegIdx) (nn : Byte) : EncodingMatchesRow.Statement (.seImm x nn) :=
  matches_XNN ..
theorem EncodingMatchesRow.sneImm (x : RegIdx) (nn : Byte) : EncodingMatchesRow.Statement (.sneImm x nn) :=
  matches_XNN ..
theorem EncodingMatchesRow.seReg (x y : RegIdx) : EncodingMatchesRow.Statement (.seReg x y) :=
  matches_XY ..
theorem EncodingMatchesRow.sneReg (x y : RegIdx) : EncodingMatchesRow.Statement (.sneReg x y) :=
  matches_XY ..
theorem EncodingMatchesRow.ldImm (x : RegIdx) (nn : Byte) : EncodingMatchesRow.Statement (.ldImm x nn) :=
  matches_XNN ..
theorem EncodingMatchesRow.addImm (x : RegIdx) (nn : Byte) : EncodingMatchesRow.Statement (.addImm x nn) :=
  matches_XNN ..
theorem EncodingMatchesRow.ldReg (x y : RegIdx) : EncodingMatchesRow.Statement (.ldReg x y) :=
  matches_XY ..
theorem EncodingMatchesRow.orReg (x y : RegIdx) : EncodingMatchesRow.Statement (.orReg x y) :=
  matches_XY ..
theorem EncodingMatchesRow.andReg (x y : RegIdx) : EncodingMatchesRow.Statement (.andReg x y) :=
  matches_XY ..
theorem EncodingMatchesRow.xorReg (x y : RegIdx) : EncodingMatchesRow.Statement (.xorReg x y) :=
  matches_XY ..
theorem EncodingMatchesRow.addReg (x y : RegIdx) : EncodingMatchesRow.Statement (.addReg x y) :=
  matches_XY ..
theorem EncodingMatchesRow.subReg (x y : RegIdx) : EncodingMatchesRow.Statement (.subReg x y) :=
  matches_XY ..
theorem EncodingMatchesRow.shr (x y : RegIdx) : EncodingMatchesRow.Statement (.shr x y) :=
  matches_XY ..
theorem EncodingMatchesRow.subn (x y : RegIdx) : EncodingMatchesRow.Statement (.subn x y) :=
  matches_XY ..
theorem EncodingMatchesRow.shl (x y : RegIdx) : EncodingMatchesRow.Statement (.shl x y) :=
  matches_XY ..
theorem EncodingMatchesRow.ldI (nnn : Addr12) : EncodingMatchesRow.Statement (.ldI nnn) :=
  matches_NNN ..
theorem EncodingMatchesRow.jpV0 (nnn : Addr12) : EncodingMatchesRow.Statement (.jpV0 nnn) :=
  matches_NNN ..
theorem EncodingMatchesRow.rnd (x : RegIdx) (nn : Byte) : EncodingMatchesRow.Statement (.rnd x nn) :=
  matches_XNN ..
theorem EncodingMatchesRow.drw (x y : RegIdx) (n : RowCount) : EncodingMatchesRow.Statement (.drw x y n) :=
  matches_XYN ..
theorem EncodingMatchesRow.skp (x : RegIdx) : EncodingMatchesRow.Statement (.skp x) :=
  matches_X ..
theorem EncodingMatchesRow.sknp (x : RegIdx) : EncodingMatchesRow.Statement (.sknp x) :=
  matches_X ..
theorem EncodingMatchesRow.ldFromDT (x : RegIdx) : EncodingMatchesRow.Statement (.ldFromDT x) :=
  matches_X ..
theorem EncodingMatchesRow.ldKey (x : RegIdx) : EncodingMatchesRow.Statement (.ldKey x) :=
  matches_X ..
theorem EncodingMatchesRow.ldToDT (x : RegIdx) : EncodingMatchesRow.Statement (.ldToDT x) :=
  matches_X ..
theorem EncodingMatchesRow.ldToST (x : RegIdx) : EncodingMatchesRow.Statement (.ldToST x) :=
  matches_X ..
theorem EncodingMatchesRow.addI (x : RegIdx) : EncodingMatchesRow.Statement (.addI x) :=
  matches_X ..
theorem EncodingMatchesRow.ldF (x : RegIdx) : EncodingMatchesRow.Statement (.ldF x) :=
  matches_X ..
theorem EncodingMatchesRow.ldB (x : RegIdx) : EncodingMatchesRow.Statement (.ldB x) :=
  matches_X ..
theorem EncodingMatchesRow.storeRegs (x : RegIdx) : EncodingMatchesRow.Statement (.storeRegs x) :=
  matches_X ..
theorem EncodingMatchesRow.loadRegs (x : RegIdx) : EncodingMatchesRow.Statement (.loadRegs x) :=
  matches_X ..

/-! ### The operands of each instruction are in range -/

theorem wellFormed_NNN (nnn : Addr12) : RawOperands.wellFormed { nnn := nnn.toNat } = true := by
  simp [RawOperands.wellFormed, regInRange, rowsInRange, immInRange, addrInRange, nnn.isLt]

theorem wellFormed_XNN (x : RegIdx) (nn : Byte) : RawOperands.wellFormed { x := x, nn := nn.toNat } = true := by
  simp [RawOperands.wellFormed, regInRange, rowsInRange, immInRange, addrInRange, x.isLt, nn.isLt]

theorem wellFormed_XYN (x y : RegIdx) (n : RowCount) : RawOperands.wellFormed { x := x, y := y, n := n } = true := by
  simp [RawOperands.wellFormed, regInRange, rowsInRange, immInRange, addrInRange, x.isLt, y.isLt, n.isLt]

theorem WellFormedOperands.cls : WellFormedOperands.Statement .cls :=
  rfl
theorem WellFormedOperands.ret : WellFormedOperands.Statement .ret :=
  rfl
theorem WellFormedOperands.jp (nnn : Addr12) : WellFormedOperands.Statement (.jp nnn) :=
  wellFormed_NNN nnn
theorem WellFormedOperands.call (nnn : Addr12) : WellFormedOperands.Statement (.call nnn) :=
  wellFormed_NNN nnn
theorem WellFormedOperands.seImm (x : RegIdx) (nn : Byte) : WellFormedOperands.Statement (.seImm x nn) :=
  wellFormed_XNN x nn
theorem WellFormedOperands.sneImm (x : RegIdx) (nn : Byte) : WellFormedOperands.Statement (.sneImm x nn) :=
  wellFormed_XNN x nn
theorem WellFormedOperands.seReg (x y : RegIdx) : WellFormedOperands.Statement (.seReg x y) :=
  wellFormed_XYN x y 0
theorem WellFormedOperands.sneReg (x y : RegIdx) : WellFormedOperands.Statement (.sneReg x y) :=
  wellFormed_XYN x y 0
theorem WellFormedOperands.ldImm (x : RegIdx) (nn : Byte) : WellFormedOperands.Statement (.ldImm x nn) :=
  wellFormed_XNN x nn
theorem WellFormedOperands.addImm (x : RegIdx) (nn : Byte) : WellFormedOperands.Statement (.addImm x nn) :=
  wellFormed_XNN x nn
theorem WellFormedOperands.ldReg (x y : RegIdx) : WellFormedOperands.Statement (.ldReg x y) :=
  wellFormed_XYN x y 0
theorem WellFormedOperands.orReg (x y : RegIdx) : WellFormedOperands.Statement (.orReg x y) :=
  wellFormed_XYN x y 0
theorem WellFormedOperands.andReg (x y : RegIdx) : WellFormedOperands.Statement (.andReg x y) :=
  wellFormed_XYN x y 0
theorem WellFormedOperands.xorReg (x y : RegIdx) : WellFormedOperands.Statement (.xorReg x y) :=
  wellFormed_XYN x y 0
theorem WellFormedOperands.addReg (x y : RegIdx) : WellFormedOperands.Statement (.addReg x y) :=
  wellFormed_XYN x y 0
theorem WellFormedOperands.subReg (x y : RegIdx) : WellFormedOperands.Statement (.subReg x y) :=
  wellFormed_XYN x y 0
theorem WellFormedOperands.shr (x y : RegIdx) : WellFormedOperands.Statement (.shr x y) :=
  wellFormed_XYN x y 0
theorem WellFormedOperands.subn (x y : RegIdx) : WellFormedOperands.Statement (.subn x y) :=
  wellFormed_XYN x y 0
theorem WellFormedOperands.shl (x y : RegIdx) : WellFormedOperands.Statement (.shl x y) :=
  wellFormed_XYN x y 0
theorem WellFormedOperands.ldI (nnn : Addr12) : WellFormedOperands.Statement (.ldI nnn) :=
  wellFormed_NNN nnn
theorem WellFormedOperands.jpV0 (nnn : Addr12) : WellFormedOperands.Statement (.jpV0 nnn) :=
  wellFormed_NNN nnn
theorem WellFormedOperands.rnd (x : RegIdx) (nn : Byte) : WellFormedOperands.Statement (.rnd x nn) :=
  wellFormed_XNN x nn
theorem WellFormedOperands.drw (x y : RegIdx) (n : RowCount) : WellFormedOperands.Statement (.drw x y n) :=
  wellFormed_XYN x y n
theorem WellFormedOperands.skp (x : RegIdx) : WellFormedOperands.Statement (.skp x) :=
  wellFormed_XYN x 0 0
theorem WellFormedOperands.sknp (x : RegIdx) : WellFormedOperands.Statement (.sknp x) :=
  wellFormed_XYN x 0 0
theorem WellFormedOperands.ldFromDT (x : RegIdx) : WellFormedOperands.Statement (.ldFromDT x) :=
  wellFormed_XYN x 0 0
theorem WellFormedOperands.ldKey (x : RegIdx) : WellFormedOperands.Statement (.ldKey x) :=
  wellFormed_XYN x 0 0
theorem WellFormedOperands.ldToDT (x : RegIdx) : WellFormedOperands.Statement (.ldToDT x) :=
  wellFormed_XYN x 0 0
theorem WellFormedOperands.ldToST (x : RegIdx) : WellFormedOperands.Statement (.ldToST x) :=
  wellFormed_XYN x 0 0
theorem WellFormedOperands.addI (x : RegIdx) : WellFormedOperands.Statement (.addI x) :=
  wellFormed_XYN x 0 0
theorem WellFormedOperands.ldF (x : RegIdx) : WellFormedOperands.Statement (.ldF x) :=
  wellFormed_XYN x 0 0
theorem WellFormedOperands.ldB (x : RegIdx) : WellFormedOperands.Statement (.ldB x) :=
  wellFormed_XYN x 0 0
theorem WellFormedOperands.storeRegs (x : RegIdx) : WellFormedOperands.Statement (.storeRegs x) :=
  wellFormed_XYN x 0 0
theorem WellFormedOperands.loadRegs (x : RegIdx) : WellFormedOperands.Statement (.loadRegs x) :=
  wellFormed_XYN x 0 0

end Sys2Proof.Laws
end

