-- ==== Sys2Proof/Laws/Step.lean ====
section
/-! SUPPORT. Everything one step can do, said once (40_execution_cycle.md R110 to R113): a proof about a step
takes this case distinction and never unfolds `step`. -/

namespace Sys2Proof.Machine

/-- A step is one of five things: nothing in mode Faulted, nothing in mode WaitingForKey, the fetch fault, an
instruction run after the pre-advance, or the pre-advance alone. -/
theorem step_cases (s : State) :
    (∃ r, s.fault = some r ∧ step s = .next s) ∨
    (∃ x, s.fault = none ∧ s.wait = some x ∧ step s = .next s) ∨
    (∃ a, s.fault = none ∧ s.wait = none ∧ s.fetch = .outOfRange a ∧
      step s = .next (s.takeFault .addressOutOfRange s.pc 0 a)) ∨
    (∃ w i, s.fault = none ∧ s.wait = none ∧ s.fetch = .word w ∧ decodeWord w = .instr i ∧
      step s = exec i s.preAdvance) ∨
    (∃ w u, s.fault = none ∧ s.wait = none ∧ s.fetch = .word w ∧ decodeWord w = .unassigned u ∧
      step s = .next s.preAdvance) := by
  cases hf : s.fault with
  | some r =>
    refine .inl ⟨r, rfl, ?_⟩
    rw [step, (mode_faulted_iff s r.cause).mpr ⟨r, hf, rfl⟩]
    rfl
  | none =>
    cases hw : s.wait with
    | some x =>
      refine .inr (.inl ⟨x, rfl, rfl, ?_⟩)
      rw [step, (mode_waiting_iff s x).mpr ⟨hf, hw⟩]
      rfl
    | none =>
      have hm := (mode_running_iff s).mpr ⟨hf, hw⟩
      cases hfetch : s.fetch with
      | outOfRange a =>
        refine .inr (.inr (.inl ⟨a, rfl, rfl, rfl, ?_⟩))
        rw [step, hm]
        simp only [hfetch]
        rfl
      | word w =>
        cases hd : decodeWord w with
        | instr i =>
          refine .inr (.inr (.inr (.inl ⟨w, i, rfl, rfl, rfl, hd, ?_⟩)))
          rw [step, hm]
          simp only [hfetch, hd]
        | unassigned u =>
          refine .inr (.inr (.inr (.inr ⟨w, u, rfl, rfl, rfl, hd, ?_⟩)))
          rw [step, hm]
          simp only [hfetch, hd]
          rfl

end Sys2Proof.Machine
end

