-- ==== Sys2Proof/Tests/Slice0.lean ====
section
/-! SUPPORT. The model's own tests. Words are written out from the patterns of 30_encoding.md R94; expected
results are those of spec/95_test_vectors.md (the vector is named beside each test), worked there by hand from
the rules. -/

namespace Sys2Proof.Tests

open Sys2Proof.Machine

/-! ### Well-formedness: one ill-formed term for each check (30_encoding.md R92, 46_host_interface.md R182) -/

theorem test_wf_refuses_x : RawOperands.wellFormed { x := 16 } = false := by decide
theorem test_wf_refuses_y : RawOperands.wellFormed { y := 16 } = false := by decide
theorem test_wf_refuses_n : RawOperands.wellFormed { n := 16 } = false := by decide
theorem test_wf_refuses_nn : RawOperands.wellFormed { nn := 256 } = false := by decide
theorem test_wf_refuses_nnn : RawOperands.wellFormed { nnn := 4096 } = false := by decide
theorem test_wf_accepts_bounds :
    RawOperands.wellFormed { x := 15, y := 15, n := 15, nn := 255, nnn := 4095 } = true := by decide
theorem test_wf_refuses_long_rom : romFits (List.replicate 3585 0xAB) = false := by
  rw [romFits, List.length_replicate]; decide
theorem test_wf_accepts_full_rom : romFits (List.replicate 3584 0xAB) = true := by
  rw [romFits, List.length_replicate]; decide

/-! ### Decoding: the word of every row, and words that are no instruction (vectors E1 to E32) -/

theorem test_decode_flow :
    decodeWord 0x00E0 = .instr .cls ∧ decodeWord 0x00EE = .instr .ret ∧
    decodeWord 0x10E0 = .instr (.jp 0x0E0) ∧ decodeWord 0x2200 = .instr (.call 0x200) ∧
    decodeWord 0xBFFF = .instr (.jpV0 0xFFF) := by decide
theorem test_decode_skips :
    decodeWord 0x3643 = .instr (.seImm 6 0x43) ∧ decodeWord 0x4643 = .instr (.sneImm 6 0x43) ∧
    decodeWord 0x5120 = .instr (.seReg 1 2) ∧ decodeWord 0x9AB0 = .instr (.sneReg 0xA 0xB) := by decide
theorem test_decode_immediate :
    decodeWord 0x6A2F = .instr (.ldImm 0xA 0x2F) ∧ decodeWord 0x7F01 = .instr (.addImm 0xF 0x01) ∧
    decodeWord 0xC3FF = .instr (.rnd 3 0xFF) ∧ decodeWord 0xA123 = .instr (.ldI 0x123) := by decide
theorem test_decode_alu :
    decodeWord 0x8120 = .instr (.ldReg 1 2) ∧ decodeWord 0x8121 = .instr (.orReg 1 2) ∧
    decodeWord 0x8122 = .instr (.andReg 1 2) ∧ decodeWord 0x8123 = .instr (.xorReg 1 2) ∧
    decodeWord 0x8124 = .instr (.addReg 1 2) ∧ decodeWord 0x8125 = .instr (.subReg 1 2) ∧
    decodeWord 0x8126 = .instr (.shr 1 2) ∧ decodeWord 0x8127 = .instr (.subn 1 2) ∧
    decodeWord 0x812E = .instr (.shl 1 2) := by decide
theorem test_decode_display_keys :
    decodeWord 0xD012 = .instr (.drw 0 1 2) ∧ decodeWord 0xE19E = .instr (.skp 1) ∧
    decodeWord 0xE1A1 = .instr (.sknp 1) ∧ decodeWord 0xF10A = .instr (.ldKey 1) := by decide
theorem test_decode_class_f :
    decodeWord 0xF207 = .instr (.ldFromDT 2) ∧ decodeWord 0xF215 = .instr (.ldToDT 2) ∧
    decodeWord 0xF218 = .instr (.ldToST 2) ∧ decodeWord 0xF21E = .instr (.addI 2) ∧
    decodeWord 0xF329 = .instr (.ldF 3) ∧ decodeWord 0xF133 = .instr (.ldB 1) ∧
    decodeWord 0xF255 = .instr (.storeRegs 2) ∧ decodeWord 0xF165 = .instr (.loadRegs 1) := by decide
theorem test_decode_unassigned :
    decodeWord 0x0000 = .unassigned (.class0 0x0000) ∧ decodeWord 0x00E1 = .unassigned (.class0 0x00E1) ∧
    decodeWord 0x0123 = .unassigned (.class0 0x0123) ∧ decodeWord 0x5121 = .unassigned (.class5 0x5121) ∧
    decodeWord 0x9AB1 = .unassigned (.class9 0x9AB1) ∧ decodeWord 0x8128 = .unassigned (.class8 0x8128) ∧
    decodeWord 0x812F = .unassigned (.class8 0x812F) ∧ decodeWord 0xE19F = .unassigned (.classE 0xE19F) ∧
    decodeWord 0xF130 = .unassigned (.classF 0xF130) ∧ decodeWord 0xFFFF = .unassigned (.classF 0xFFFF) := by
  decide
theorem test_decode_bytes :
    decode [0xA1, 0x23, 0x77] = .ok (.ldI 0x123) [0x77] ∧ decode [0xA1] = .truncated ∧
    decodeTableWord 16 0xA123 = some (.ldI 0x123) := by decide
theorem test_rows_disjoint :
    (opcodeRows.Pairwise fun r q => r.pattern &&& (r.mask &&& q.mask) ≠ q.pattern &&& (r.mask &&& q.mask)) ∧
      opcodeRows.length = 34 := by decide

/-! ### One step -/

/-- The reset state with some registers set. -/
def regs (l : List (RegIdx × Byte)) : State := l.foldl (fun s p => s.writeReg p.1 p.2) State.reset

/-- What a function reads from the state after one step of the instruction word `w` at `pc`. -/
def look {α : Type} (w : Nat) (s : State) (f : State → α) : Option α :=
  match step (s.withFetchWord 16 w) with
  | .next t => some (f t)
  | .fault _ => none
  | .refused _ => none

/-- The bytes at an address. -/
def bytesAt (a n : Nat) (t : State) : List Byte := Memory.readBytes t.mem a n

/-- A state with `I` and bytes there. -/
def withBytes (i : Word) (bs : List Byte) (s : State) : State :=
  (s.setI i).setMem (Memory.writeBytes s.mem i.toNat bs)

/-- A fault record. -/
def record (c : Fault) (epc opcode addr : Word) : Option FaultRecord := some ⟨c, epc, opcode, addr⟩

-- F1, F2
theorem test_jp : look 0x1234 State.reset (·.pc) = some 0x234 ∧ look 0x1201 State.reset (·.pc) = some 0x201 := by
  decide
-- F4, F26
theorem test_call : look 0x2300 State.reset (fun t => (t.pc, t.sp, t.stack[0])) = some (0x300, 1, 0x202) := by
  decide
-- F7
theorem test_call_overflow :
    look 0x2300 { State.reset with sp := 16 } (fun t => (t.pc, t.sp, t.fault)) =
      some (0x202, 16, record .stackOverflow 0x200 0x2300 0) := by decide
-- F5
theorem test_ret :
    look 0x00EE { State.reset with sp := 1, stack := State.reset.stack.set 0 0x0402 }
      (fun t => (t.pc, t.sp, t.stack[0])) = some (0x402, 0, 0x402) := by decide
-- F6
theorem test_ret_underflow :
    look 0x00EE State.reset (fun t => (t.pc, t.sp, t.fault, t.report)) =
      some (0x202, 0, record .stackUnderflow 0x200 0x00EE 0, .err .stackUnderflow) := by decide
-- F8 to F11
theorem test_skip_immediate :
    look 0x3643 (regs [(6, 0x43)]) (·.pc) = some 0x204 ∧ look 0x3643 (regs [(6, 0x42)]) (·.pc) = some 0x202 ∧
    look 0x4643 (regs [(6, 0x42)]) (·.pc) = some 0x204 ∧ look 0x4643 (regs [(6, 0x43)]) (·.pc) = some 0x202 := by
  decide
-- F12 to F17
theorem test_skip_registers :
    look 0x5120 (regs [(1, 7), (2, 7)]) (·.pc) = some 0x204 ∧
    look 0x5120 (regs [(1, 7), (2, 8)]) (·.pc) = some 0x202 ∧
    look 0x9120 (regs [(1, 7), (2, 8)]) (·.pc) = some 0x204 ∧
    look 0x9120 (regs [(1, 7), (2, 7)]) (·.pc) = some 0x202 := by decide
-- F18, F20
theorem test_jp_v0 :
    look 0xB300 (regs [(0, 4)]) (·.pc) = some 0x304 ∧ look 0xBFFF (regs [(0, 0xFF)]) (·.pc) = some 0x10FE := by
  decide
-- A1, A2
theorem test_load_add_immediate :
    look 0x6A2F State.reset (·.readReg 0xA) = some 0x2F ∧
    look 0x7105 (regs [(1, 0xFE), (0xF, 0x55)]) (fun t => (t.readReg 1, t.readReg 0xF)) = some (0x03, 0x55) := by
  decide
-- A6 to A9
theorem test_logic :
    look 0x8120 (regs [(2, 0x77)]) (·.readReg 1) = some 0x77 ∧
    look 0x8121 (regs [(1, 0xF0), (2, 0x0F), (0xF, 0x55)]) (fun t => (t.readReg 1, t.readReg 0xF)) =
      some (0xFF, 0x55) ∧
    look 0x8122 (regs [(1, 0xF3), (2, 0x3C)]) (·.readReg 1) = some 0x30 ∧
    look 0x8123 (regs [(1, 0xFF), (2, 0x0F)]) (·.readReg 1) = some 0xF0 := by decide
-- A11, A12, A15, A17
theorem test_add_registers :
    look 0x8124 (regs [(1, 0xC8), (2, 0x64)]) (fun t => (t.readReg 1, t.readReg 0xF)) = some (0x2C, 1) ∧
    look 0x8124 (regs [(1, 0x80), (2, 0x7F), (0xF, 1)]) (fun t => (t.readReg 1, t.readReg 0xF)) = some (0xFF, 0) ∧
    look 0x8F14 (regs [(0xF, 0xF0), (1, 0x20)]) (·.readReg 0xF) = some 1 ∧
    look 0x81F4 (regs [(1, 0xFF), (0xF, 1)]) (fun t => (t.readReg 1, t.readReg 0xF)) = some (0, 1) := by decide
-- A19, A20, A23
theorem test_sub :
    look 0x8125 (regs [(1, 5), (2, 7)]) (fun t => (t.readReg 1, t.readReg 0xF)) = some (0xFE, 0) ∧
    look 0x8125 (regs [(1, 7), (2, 7), (0xF, 0)]) (fun t => (t.readReg 1, t.readReg 0xF)) = some (0, 1) ∧
    look 0x8F15 (regs [(0xF, 5), (1, 3)]) (·.readReg 0xF) = some 1 := by decide
-- A26, A27
theorem test_subn :
    look 0x8127 (regs [(1, 5), (2, 7)]) (fun t => (t.readReg 1, t.readReg 0xF)) = some (2, 1) ∧
    look 0x8127 (regs [(1, 7), (2, 5)]) (fun t => (t.readReg 1, t.readReg 0xF)) = some (0xFE, 0) := by decide
-- A31, A35
theorem test_shr :
    look 0x8126 (regs [(1, 4), (2, 0xFF), (0xF, 1)]) (fun t => (t.readReg 1, t.readReg 2, t.readReg 0xF)) =
      some (2, 0xFF, 0) ∧
    look 0x8F06 (regs [(0xF, 2)]) (·.readReg 0xF) = some 0 := by decide
-- A36, A39
theorem test_shl :
    look 0x810E (regs [(1, 0x81)]) (fun t => (t.readReg 1, t.readReg 0xF)) = some (2, 1) ∧
    look 0x812E (regs [(1, 1), (2, 0x80)]) (fun t => (t.readReg 1, t.readReg 2, t.readReg 0xF)) =
      some (2, 0x80, 0) := by decide
-- A42, A45
theorem test_rnd_of_draw :
    (rndWith 0xA7 1 0x0F State.reset).readReg 1 = 0x07 ∧ (rndWith 0x5A 0xF 0xF0 State.reset).readReg 0xF = 0x50 := by
  decide
-- A44: nn = 0 gives 0 whatever the draw
theorem test_rnd_zero_mask : look 0xC100 (regs [(1, 9)]) (fun t => (t.draws, t.pc)) = some (1, 0x202) := by decide
-- M1, M4, M5
theorem test_index :
    look 0xA123 State.reset (·.I) = some 0x123 ∧
    look 0xF21E ((regs [(2, 2)]).setI 0xFFFF) (fun t => (t.I, t.readReg 0xF)) = some (1, 0) ∧
    look 0xF21E ((regs [(2, 1)]).setI 0x0FFF) (fun t => (t.I, t.readReg 0xF)) = some (0x1000, 0) := by decide
-- M7, M10
theorem test_font_address :
    look 0xF329 (regs [(3, 0x0A)]) (·.I) = some 0x32 ∧ look 0xF329 (regs [(3, 0xFF)]) (·.I) = some 0x4FB := by
  decide
-- M11, M15
theorem test_bcd :
    look 0xF133 ((regs [(1, 0x89)]).setI 0x300) (fun t => (bytesAt 0x300 3 t, t.I)) = some ([1, 3, 7], 0x300) ∧
    look 0xF133 ((regs [(1, 0xEA)]).setI 0xFFD) (bytesAt 0xFFD 3) = some [2, 3, 4] := by decide
-- M16
theorem test_bcd_out_of_range :
    look 0xF133 ((regs [(1, 0xEA)]).setI 0xFFE) (fun t => (bytesAt 0xFFE 2 t, t.pc, t.fault)) =
      some ([0, 0], 0x202, record .addressOutOfRange 0x200 0xF133 0x1000) := by decide
-- M17
theorem test_store_registers :
    look 0xF255 ((regs [(0, 0x11), (1, 0x22), (2, 0x33), (3, 0x44)]).setI 0x300)
      (fun t => (bytesAt 0x300 4 t, t.I)) = some ([0x11, 0x22, 0x33, 0], 0x300) := by decide
-- M20
theorem test_store_out_of_range :
    look 0xF155 ((regs [(0, 0x99), (1, 0x88)]).setI 0xFFF) (fun t => (bytesAt 0xFFF 1 t, t.fault)) =
      some ([0], record .addressOutOfRange 0x200 0xF155 0x1000) := by decide
-- M21
theorem test_load_registers :
    look 0xF165 (withBytes 0x300 [0xAA, 0xBB, 0xCC] (regs [(2, 0x77)]))
      (fun t => (t.readReg 0, t.readReg 1, t.readReg 2, t.I)) = some (0xAA, 0xBB, 0x77, 0x300) := by decide
-- M26
theorem test_load_out_of_range :
    look 0xFF65 ((regs [(0, 5)]).setI 0xFFFF) (fun t => (t.readReg 0, t.fault)) =
      some (5, record .addressOutOfRange 0x200 0xFF65 0xFFFF) := by decide
-- M22: depends on FONT at its default
theorem test_font_default :
    look 0xFF65 State.reset (fun t => t.V.toList) =
      some [0xF0, 0x90, 0x90, 0x90, 0xF0, 0x20, 0x60, 0x20, 0x20, 0x70, 0xF0, 0x10, 0xF0, 0x80, 0xF0, 0xF0] := by
  decide

/-- The set pixels of a row, by column. -/
def lit (py : Fin 32) (t : State) : List (Fin 64) := (List.finRange 64).filter fun px => observePixel t py px

-- G4: columns wrap
theorem test_draw_wraps_columns :
    look 0xD011 (withBytes 0x300 [0xFF] (regs [(0, 62)])) (fun t => (lit 0 t, t.readReg 0xF, t.dirty)) =
      some ([0, 1, 2, 3, 4, 5, 62, 63], 0, true) := by decide
-- G5: rows are clipped
theorem test_draw_clips_rows :
    look 0xD012 (withBytes 0x300 [0xFF, 0xFF] (regs [(1, 31)])) (fun t => (lit 31 t, lit 0 t)) =
      some ([0, 1, 2, 3, 4, 5, 6, 7], []) := by decide
-- G2: collision
theorem test_draw_collision :
    look 0xD011 (withBytes 0x300 [0xC0] { State.reset with fb := Framebuffer.toggle Framebuffer.clear 0 0 })
      (fun t => (lit 0 t, t.readReg 0xF)) = some ([1], 1) := by decide
-- G12, G16
theorem test_draw_range :
    look 0xD012 ((regs [(0xF, 7)]).setI 0xFFF) (fun t => (t.readReg 0xF, t.dirty, t.fault)) =
      some (7, false, record .addressOutOfRange 0x200 0xD012 0x1000) ∧
    look 0xD010 ((regs [(0xF, 1)]).setI 0xFFFF) (fun t => (t.readReg 0xF, t.dirty, t.fault)) =
      some (0, true, none) := by decide
-- G13
theorem test_clear :
    look 0x00E0 { regs [(0xF, 1)] with fb := Framebuffer.toggle Framebuffer.clear 3 4 }
      (fun t => (t.fb, t.dirty, t.readReg 0xF)) = some (Framebuffer.clear, true, 1) := by decide
-- K1, K3, K4
theorem test_key_skips :
    look 0xE19E ((regs [(1, 5)]).setKey 0x0020) (·.pc) = some 0x204 ∧
    look 0xE1A1 ((regs [(1, 5)]).setKey 0x0020) (·.pc) = some 0x202 ∧
    look 0xE19E ((regs [(1, 0x15)]).setKey 0xFFFF) (·.pc) = some 0x202 ∧
    look 0xE1A1 ((regs [(1, 0x15)]).setKey 0xFFFF) (·.pc) = some 0x204 := by decide
-- K5
theorem test_wait_for_key :
    look 0xF30A (regs [(3, 0x77)]) (fun t => (t.pc, t.wait, t.readReg 3, t.report)) =
      some (0x202, some 3, 0x77, .ok) := by decide
-- K8, K9, K10
theorem test_timer_moves :
    look 0xF207 (State.reset.setDT 0x2A) (fun t => (t.readReg 2, t.DT)) = some (0x2A, 0x2A) ∧
    look 0xF215 (regs [(2, 0x3C)]) (·.DT) = some 0x3C ∧
    look 0xF218 (regs [(2, 5)]) (fun t => (t.ST, soundActive t)) = some (5, true) := by decide
-- X1, F23
theorem test_fetch_fault :
    look 0 (State.reset.setPc 0x1000) (fun t => (t.pc, t.fault)) =
      some (0x1000, record .addressOutOfRange 0x1000 0 0x1000) ∧
    look 0 (State.reset.setPc 0x0FFF) (fun t => (t.pc, t.fault)) =
      some (0x0FFF, record .addressOutOfRange 0x0FFF 0 0x1000) := by decide
-- E34, E33
theorem test_unassigned_is_no_op :
    look 0x5121 (regs [(1, 7), (2, 7)]) (fun t => (t.pc, t.fault)) = some (0x202, none) ∧
    look 0x0000 State.reset id = some (State.reset.setPc 0x202) := by decide

/-! ### Host operations -/

-- K6, K7, K12
theorem test_press_ends_wait :
    press 0xB { State.reset with wait := some 3 } =
      { (State.reset.writeReg 3 0x0B) with key := 0x0800 } ∧
    release 4 { State.reset with wait := some 3 } = { State.reset with wait := some 3 } := by decide
-- K11
theorem test_ticks :
    ((advanceTimers { State.reset with DT := 2, ST := 1 }).DT, (advanceTimers { State.reset with DT := 2, ST := 1 }).ST) =
      (1, 0) ∧ advanceTimers State.reset = State.reset := by decide
-- H5
theorem test_set_keys :
    setKeys 0x8410 { State.reset with wait := some 1, key := 0x0010 } =
      { (State.reset.writeReg 1 0x0A) with key := 0x8410 } := by decide +kernel
-- H3
theorem test_load :
    (load [0x12, 0x34, 0x56] State.reset).map (fun t => (bytesAt 0x1FF 5 t, t.pc)) =
      some ([0, 0x12, 0x34, 0x56, 0], 0x200) := by decide
-- X2, X3
theorem test_faulted_machine :
    (match step (State.reset.takeFault .stackUnderflow 0x200 0x00EE 0) with
      | .next t => some t | .fault _ => none | .refused _ => none) =
      some (State.reset.takeFault .stackUnderflow 0x200 0x00EE 0) ∧
    (press 2 (State.reset.takeFault .stackUnderflow 0x200 0x00EE 0)).key = 4 ∧
    (State.reset.takeFault .stackUnderflow 0x200 0x00EE 0).resetFrom = State.reset := by decide

/-! ### Witnesses: for each statement with hypotheses, states and operands that meet them together, one for each
clause, at its boundary values -/

theorem witness_DecodeOfEncodedInstruction : (Instr.drw 15 15 15).wellFormed = true := by decide
theorem witness_EncodeOfDecodedWord :
    decodeWord 0xDFFF = .instr (.drw 15 15 15) ∧ decodeWord 0x00EE = .instr .ret := by decide
theorem witness_DecoderAgreesWithOpcodeTable :
    opcodeRow (.jp 0) ∈ opcodeRows ∧ (opcodeRow (.jp 0)).matchesWord 0x1FFF = true := by decide

/-- Instruction word `w` in the last two bytes of memory, `pc` there. -/
def atTheEnd (w : Nat) : State := (State.reset.setPc 0xFFE).withFetchWord 16 w

theorem witness_RunningStepFetchesAdvancesExecutes :
    ((State.reset.setPc 0xFFF).fault = none ∧ (State.reset.setPc 0xFFF).wait = none ∧
      0xFFF < (State.reset.setPc 0xFFF).pc.toNat + 1) ∧
    ((atTheEnd 0x1234).fault = none ∧ (atTheEnd 0x1234).wait = none ∧ (atTheEnd 0x1234).pc.toNat + 1 ≤ 0xFFF ∧
      (Instr.jp 0x234).wellFormed = true ∧
      decode [Memory.read (atTheEnd 0x1234).mem (atTheEnd 0x1234).pc.toNat,
        Memory.read (atTheEnd 0x1234).mem ((atTheEnd 0x1234).pc.toNat + 1)] = .ok (.jp 0x234) []) ∧
    decode [Memory.read (atTheEnd 0x5121).mem (atTheEnd 0x5121).pc.toNat,
      Memory.read (atTheEnd 0x5121).mem ((atTheEnd 0x5121).pc.toNat + 1)] = .unassigned (.class5 0x5121) := by
  decide

/-- A faulted state: a return at depth 0. -/
def faulted : State := (State.reset.setPc 0x202).takeFault .stackUnderflow 0x200 0x00EE 0

/-- A waiting state. -/
def waiting (x : RegIdx) (held : BitVec 16) : State := (State.reset.setWait (some x)).setKey held

theorem witness_StepChangesNothingWhenFaultedOrWaiting :
    faulted.fault = some ⟨.stackUnderflow, 0x200, 0x00EE, 0⟩ ∧
    (waiting 3 0).fault = none ∧ (waiting 3 0).wait = some 3 := by decide
theorem witness_RandomWritesOneDrawMasked :
    (∃ t, exec (.ldI 7) State.reset = .next t) ∧ (∀ x nn, Instr.ldI 7 ≠ .rnd x nn) :=
  ⟨⟨_, rfl⟩, fun _ _ h => Instr.noConfusion h⟩
theorem witness_CallPushesOrOverflows :
    ({ State.reset with sp := 0 } : State).sp.val < 16 ∧ ({ State.reset with sp := 15 } : State).sp.val < 16 ∧
    ({ State.reset with sp := 16 } : State).sp = 16 := by decide
theorem witness_ReturnPopsOrUnderflows :
    ({ State.reset with sp := 1 } : State).sp.val = (0 : Fin 16).val + 1 ∧
    ({ State.reset with sp := 16 } : State).sp.val = (15 : Fin 16).val + 1 ∧ State.reset.sp = 0 := by decide
theorem witness_ReturnResumesAfterCall :
    ∃ t, State.reset.sp.val < 16 ∧ exec (.call 0x300) State.reset = .next t ∧
      (t.setPc 0x400).stack = t.stack ∧ (t.setPc 0x400).sp = t.sp := ⟨_, by decide, rfl, rfl, rfl⟩
theorem witness_KeySkipsFollowTheKeypad :
    (∃ k : KeyCode, (((regs [(1, 15)]).setKey 0x8000).readReg 1).toNat = k.val ∧
      ((regs [(1, 15)]).setKey 0x8000).key.getLsbD k.val = true) ∧
    (¬∃ k : KeyCode, (((regs [(1, 16)]).setKey 0xFFFF).readReg 1).toNat = k.val ∧
      ((regs [(1, 16)]).setKey 0xFFFF).key.getLsbD k.val = true) ∧
    ¬∃ k : KeyCode, (((regs [(1, 0)]).setKey 0xFFFE).readReg 1).toNat = k.val ∧
      ((regs [(1, 0)]).setKey 0xFFFE).key.getLsbD k.val = true := by decide
theorem witness_DecimalStoreWritesThreeDigits :
    (MemoryCanonical (State.reset.setI 0xFFD) ∧ (State.reset.setI 0xFFD).dataAddress + 2 ≤ 0xFFF) ∧
    0xFFF < (State.reset.setI 0xFFE).dataAddress + 2 := by unfold MemoryCanonical; decide
theorem witness_RegisterStoreWritesV0ToVx :
    (MemoryCanonical (State.reset.setI 0xFF0) ∧ (State.reset.setI 0xFF0).dataAddress + (15 : RegIdx).val ≤ 0xFFF) ∧
    0xFFF < (State.reset.setI 0xFF1).dataAddress + (15 : RegIdx).val ∧
    0xFFF < (State.reset.setI 0xFFFF).dataAddress + (0 : RegIdx).val := by unfold MemoryCanonical; decide
theorem witness_RegisterLoadReadsV0ToVx :
    (State.reset.setI 0xFFF).dataAddress + (0 : RegIdx).val ≤ 0xFFF ∧
    0xFFF < (State.reset.setI 0x1000).dataAddress + (0 : RegIdx).val := by decide
theorem witness_StoreThenLoadRestoresRegisters :
    ∃ t, MemoryCanonical ((regs [(1, 9)]).setI 0x300) ∧
      ((regs [(1, 9)]).setI 0x300).dataAddress + (2 : RegIdx).val ≤ 0xFFF ∧
      exec (.storeRegs 2) ((regs [(1, 9)]).setI 0x300) = .next t ∧
      (t.writeReg 1 0).mem = t.mem ∧ (t.writeReg 1 0).I = t.I :=
  ⟨_, by unfold MemoryCanonical; decide, by decide, rfl, rfl, rfl⟩
theorem witness_StoreIsSeenByTheNextFetch :
    ∃ t, MemoryCanonical ((regs [(2, 0x12)]).setI 0x1FE) ∧
      ((regs [(2, 0x12)]).setI 0x1FE).dataAddress + (3 : RegIdx).val ≤ 0xFFF ∧
      (3 : RegIdx).val = (2 : RegIdx).val + 1 ∧ (3 : RegIdx).val ≤ (3 : RegIdx).val ∧
      ((regs [(2, 0x12)]).setI 0x1FE).pc.toNat = ((regs [(2, 0x12)]).setI 0x1FE).dataAddress + (2 : RegIdx).val ∧
      exec (.storeRegs 3) ((regs [(2, 0x12)]).setI 0x1FE) = .next t :=
  ⟨_, by unfold MemoryCanonical; decide, by decide, by decide, by decide, by decide, rfl⟩

/-- A one-row sprite of one pixel at column 63, row 31, over a screen with that pixel as given. -/
def oneDot (set : Bool) : State :=
  { withBytes 0x300 [0x80] (regs [(0, 63), (1, 31)]) with
    fb := if set then Framebuffer.toggle Framebuffer.clear 31 63 else Framebuffer.clear }

theorem oneDot_covers (set : Bool) : SpriteCovers (oneDot set) 0 1 1 31 63 :=
  ⟨0, 0, by decide, by cases set <;> decide, by cases set <;> decide, by cases set <;> decide⟩

theorem witness_DrawTogglesTheSprite :
    ((0 : RowCount).val = 0 ∨ (State.reset.setI 0xFFFF).dataAddress + (0 : RowCount).val - 1 ≤ 0xFFF) ∧
    ((2 : RowCount).val = 0 ∨ (State.reset.setI 0xFFE).dataAddress + (2 : RowCount).val - 1 ≤ 0xFFF) ∧
    ((2 : RowCount).val ≠ 0 ∧ 0xFFF < (State.reset.setI 0xFFF).dataAddress + (2 : RowCount).val - 1) ∧
    ((1 : RowCount).val = 0 ∨ (oneDot true).dataAddress + (1 : RowCount).val - 1 ≤ 0xFFF) := by decide
theorem witness_DrawTogglesTheSprite_collision :
    (∃ py px, SpriteCovers (oneDot true) 0 1 1 py px ∧ Framebuffer.pixel (oneDot true).fb py px = true) ∧
    ¬∃ py px, SpriteCovers (oneDot false) 0 1 1 py px ∧ Framebuffer.pixel (oneDot false).fb py px = true :=
  ⟨⟨31, 63, oneDot_covers true, by decide⟩, fun ⟨py, px, _, h⟩ => by
    revert py px; simp [oneDot, Framebuffer.pixel, Framebuffer.clear]⟩
theorem witness_DrawTogglesTheSprite_uncovered : ¬SpriteCovers (oneDot true) 0 1 1 0 63 := by
  rintro ⟨row, _, hlt, hy, _⟩
  have : ((oneDot true).readReg 1).toNat % 32 = 31 := by decide
  have : ((0 : Fin 32)).val = 0 := rfl
  omega
theorem witness_DrawingTwiceRestoresTheScreen :
    ∃ t, ((1 : RowCount).val = 0 ∨ (oneDot true).dataAddress + (1 : RowCount).val - 1 ≤ 0xFFF) ∧
      exec (.drw 0 1 1) (oneDot true) = .next t ∧ t.undirty.fb = t.fb ∧ t.undirty.I = (oneDot true).I ∧
      t.undirty.readReg 0 = (oneDot true).readReg 0 ∧ t.undirty.readReg 1 = (oneDot true).readReg 1 ∧
      ∀ row, row < (1 : RowCount).val → Memory.read t.undirty.mem ((oneDot true).I.toNat + row) =
        Memory.read (oneDot true).mem ((oneDot true).I.toNat + row) :=
  ⟨_, by decide, rfl, rfl, rfl, by decide, by decide, fun _ _ => rfl⟩
theorem witness_WaitForKeyUntilPress :
    State.reset.fault = none ∧ ∃ t, exec (.ldKey 3) State.reset = .next t ∧
      (∃ u, applyOp (.load [0x12, 0x00]) t = .next (u, .ok) ∧ u.wait = some 3) ∧
      (∃ u, applyOp .reset t = .next (u, .none) ∧ u.wait = none) ∧
      (∃ u, applyOp (.press 15) t = .next (u, .none) ∧ u.wait = none) ∧
      (∃ u, applyOp (.setKeys 0x8000) t = .next (u, .none) ∧ u.wait = none) ∧
      (0x8000 : BitVec 16).getLsbD (15 : KeyCode).val = true ∧
      State.reset.key.getLsbD (15 : KeyCode).val = false :=
  ⟨rfl, _, rfl, ⟨_, rfl, by decide⟩, ⟨_, rfl, by decide⟩, ⟨_, rfl, by decide⟩, ⟨_, rfl, by decide +kernel⟩, by decide,
    by decide⟩
theorem witness_PressSetsKeyAndEndsWait :
    (waiting 3 0xFFFF).mode = .waitingForKey 3 ∧ (∀ r, State.reset.mode ≠ .waitingForKey r) ∧
    ∀ r, faulted.mode ≠ .waitingForKey r := by decide
theorem witness_SnapshotDeliversTheLowestNewKey :
    ((waiting 1 0x0001).mode = .waitingForKey 1 ∧ (0x8003 : BitVec 16).getLsbD (1 : KeyCode).val = true ∧
      (waiting 1 0x0001).key.getLsbD (1 : KeyCode).val = false ∧
      ∀ j : KeyCode, j < 1 → (0x8003 : BitVec 16).getLsbD j.val = true →
        (waiting 1 0x0001).key.getLsbD j.val = true) ∧
    ((waiting 1 0xFFFF).mode = .waitingForKey 1 ∧
      ∀ k : KeyCode, (0x8003 : BitVec 16).getLsbD k.val = true → (waiting 1 0xFFFF).key.getLsbD k.val = true) ∧
    ∀ r, State.reset.mode ≠ .waitingForKey r := by decide
theorem witness_FontAddressIsFiveTimesTheValue : ((regs [(1, 15)]).readReg 1).toNat ≤ 15 := by decide
theorem witness_LoadCopiesTheProgramOrNothing :
    (MemoryCanonical State.reset ∧ 0x200 + (List.replicate 3584 (0xAB : Byte)).length ≤ 4096) ∧
    4096 < 0x200 + (List.replicate 3585 (0xAB : Byte)).length := by
  simp only [List.length_replicate]; unfold MemoryCanonical; decide
theorem witness_InstructionsWriteOnlyTheirParts :
    ((∃ t, exec (.storeRegs 15) (State.reset.setI 0xFF0) = .next t) ∧
      0xFEF < (State.reset.setI 0xFF0).dataAddress ∧
      (State.reset.setI 0xFF0).dataAddress + storedLength (.storeRegs 15) ≤ 0x1000) ∧
    ((∃ t, exec (.addReg 1 2) State.reset = .next t) ∧ ¬WritesRegister (.addReg 1 2) 2) ∧
    ((∃ t, exec (.loadRegs 14) State.reset = .next t) ∧ ¬WritesRegister (.loadRegs 14) 15) ∧
    (∃ t, exec (.call 0x300) State.reset = .next t) ∧ (1 : Fin 16).val ≠ State.reset.sp.val :=
  ⟨⟨⟨_, rfl⟩, by decide, by decide⟩, ⟨⟨_, rfl⟩, by simp [WritesRegister, regF]⟩,
    ⟨⟨_, rfl⟩, by simp [WritesRegister]⟩, ⟨_, rfl⟩, by decide⟩
theorem witness_StepsNeverTickTimersNorTouchKeys :
    ∃ t, step (State.reset.withFetchWord 16 0xF215) = .next t := ⟨_, rfl⟩
theorem witness_DirtyFlagProtocol :
    (∃ t, applyOp .step (State.reset.withFetchWord 16 0x00E0) = .next (t, .ok) ∧
      (State.reset.withFetchWord 16 0x00E0).dirty = false ∧ t.dirty = true) ∧
    (∃ t, applyOp .clearDirty (State.reset.setScreen Framebuffer.clear) = .next (t, .none) ∧
      (State.reset.setScreen Framebuffer.clear).dirty = true ∧ t.dirty = false) ∧
    ∃ t, applyOp .step ((oneDot true).withFetchWord 16 0x00E0) = .next (t, .ok) ∧ t.fb ≠ (oneDot true).fb :=
  ⟨⟨_, rfl, by decide, by decide⟩, ⟨_, rfl, by decide, by decide⟩, ⟨_, rfl, by decide⟩⟩
theorem witness_DirtyAndSoundTimerAreNotRead :
    ∃ t, step (State.reset.withFetchWord 16 0xF318) = .next t := ⟨_, rfl⟩
theorem witness_FaultsArePrecise :
    (∃ t, (State.reset.withFetchWord 16 0x00EE).fault = none ∧
      step (State.reset.withFetchWord 16 0x00EE) = .next t ∧
      t.fault = some ⟨.stackUnderflow, 0x200, 0x00EE, 0⟩) ∧
    ∃ t, (State.reset.setPc 0xFFF).fault = none ∧ step (State.reset.setPc 0xFFF) = .next t ∧
      t.fault = some ⟨.addressOutOfRange, 0xFFF, 0, 0x1000⟩ :=
  ⟨⟨_, by decide, rfl, by decide⟩, ⟨_, by decide, rfl, by decide⟩⟩
theorem witness_OnlySixInstructionsRaiseFaults :
    (∃ t, ({ State.reset with sp := 16 } : State).fault = none ∧
      exec (.call 0x300) { State.reset with sp := 16 } = .next t ∧
      t.fault = some ⟨.stackOverflow, 0x1FE, 0x2300, 0⟩) ∧
    ∃ t, (State.reset.setI 0xFFFF).fault = none ∧ exec (.loadRegs 0) (State.reset.setI 0xFFFF) = .next t ∧
      t.fault = some ⟨.addressOutOfRange, 0x1FE, 0xF065, 0xFFFF⟩ :=
  ⟨⟨_, by decide, rfl, by decide⟩, ⟨_, by decide, rfl, by decide⟩⟩
theorem witness_FirstFaultStandsUntilReset :
    ∃ t, faulted.fault = some ⟨.stackUnderflow, 0x200, 0x00EE, 0⟩ ∧
      HostOp.reset ∉ [HostOp.step, .press 2, .advanceTimers] ∧
      runOps [.step, .press 2, .advanceTimers] faulted = .next t := ⟨_, by decide, by decide, rfl⟩
theorem witness_SafeRunsHaveSafeBeginnings :
    HostOp.reset ∉ [HostOp.advanceTimers] ∧
      SafeRun ([.step] ++ [.advanceTimers]) (State.reset.withFetchWord 16 0x1200) :=
  ⟨by decide, _, rfl, by decide⟩
theorem witness_ModeTransitions :
    (∃ t, applyOp .step (State.reset.withFetchWord 16 0xF30A) = .next (t, .ok) ∧
      (State.reset.withFetchWord 16 0xF30A).mode = .running ∧ t.mode = .waitingForKey 3) ∧
    (∃ t, applyOp .step (State.reset.withFetchWord 16 0x00EE) = .next (t, .err .stackUnderflow) ∧
      (State.reset.withFetchWord 16 0x00EE).mode = .running ∧ t.mode = .faulted .stackUnderflow) ∧
    (∃ t, applyOp (.press 4) (waiting 3 0) = .next (t, .none) ∧ (waiting 3 0).mode = .waitingForKey 3) ∧
    ∃ t, applyOp .reset faulted = .next (t, .none) ∧ faulted.mode = .faulted .stackUnderflow :=
  ⟨⟨_, rfl, by decide, by decide⟩, ⟨_, rfl, by decide, by decide⟩, ⟨_, rfl, by decide⟩, ⟨_, rfl, by decide⟩⟩
theorem witness_SelfJumpIsAFixedPoint :
    HaltedAt 0x200 (State.reset.withFetchWord 16 0x1200) ∧ HaltedAt 0xFFE (atTheEnd 0x1FFE) := by
  unfold HaltedAt; decide

/-- The invariant holds in a faulted state, and in a running one with an instruction to run. -/
theorem invariant_faulted : Invariant faulted := by
  refine ⟨by unfold MemoryCanonical; decide, .inr rfl, ?_, by decide, by decide⟩
  intro r h
  obtain rfl := Option.some.inj h
  exact ⟨⟨rfl, rfl, rfl⟩, .inl rfl⟩
theorem invariant_running : Invariant (State.reset.withFetchWord 16 0xF30A) := by
  refine ⟨by unfold MemoryCanonical; decide, .inl (by decide), ?_, by decide, by decide⟩
  intro r h
  cases (show none = some r from h)
theorem witness_StepKeepsTheInvariant :
    Invariant (State.reset.withFetchWord 16 0xF30A) ∧ ∃ t, step (State.reset.withFetchWord 16 0xF30A) = .next t :=
  ⟨invariant_running, _, rfl⟩
theorem witness_SchedulesKeepTheInvariant :
    Invariant faulted ∧ ∃ t, runOps [.step, .clearDirty, .reset, .load [0x00, 0xE0], .step] faulted = .next t :=
  ⟨invariant_faulted, _, rfl⟩

end Sys2Proof.Tests
end

section
/-! The frame of each operation on the state: the parts it leaves as they were (10_state.md R41). -/

namespace Sys2Proof.Machine

theorem OnlyChanges.trans {ps : List Part} {s t u : State} (hst : OnlyChanges ps s t) (htu : OnlyChanges ps t u) :
    OnlyChanges ps s u := by
  intro p hp
  have h₁ := hst p hp
  have h₂ := htu p hp
  cases p with
  | registers => exact fun r => (h₂ r).trans (h₁ r)
  | memory => exact fun a => (h₂ a).trans (h₁ a)
  | _ => exact Eq.trans h₂ h₁

theorem OnlyChanges.mono {ps qs : List Part} {s t : State} (h : OnlyChanges ps s t) (hsub : ps ⊆ qs) :
    OnlyChanges qs s t :=
  fun p hp => h p fun hmem => hp (hsub hmem)

section
variable (s : State)

theorem onlyChanges_writeReg (x : RegIdx) (b : Byte) : OnlyChanges [.registers] s (s.writeReg x b) := by
  intro p hp; cases p <;> simp_all [Agree]

theorem onlyChanges_writeResultFlag (x : RegIdx) (b : Byte) (f : Bool) :
    OnlyChanges [.registers] s (s.writeResultFlag x b f) :=
  (onlyChanges_writeReg s x b).trans (onlyChanges_writeReg _ regF _)

theorem onlyChanges_writeRegsFrom (k : Nat) (bs : List Byte) :
    OnlyChanges [.registers] s (State.writeRegsFrom k bs s) := by
  rw [writeRegsFrom_eq]
  intro p hp; cases p <;> simp_all [Agree]

theorem onlyChanges_setPc (w : Word) : OnlyChanges [.counter] s (s.setPc w) := by
  intro p hp; cases p <;> simp_all [Agree]

theorem onlyChanges_skipIf (c : Bool) : OnlyChanges [.counter] s (s.skipIf c) := by
  intro p hp; cases p <;> simp_all [Agree]

theorem onlyChanges_setI (w : Word) : OnlyChanges [.index] s (s.setI w) := by
  intro p hp; cases p <;> simp_all [Agree]

theorem onlyChanges_setDT (b : Byte) : OnlyChanges [.delayTimer] s (s.setDT b) := by
  intro p hp; cases p <;> simp_all [Agree]

theorem onlyChanges_setST (b : Byte) : OnlyChanges [.soundTimer] s (s.setST b) := by
  intro p hp; cases p <;> simp_all [Agree]

theorem onlyChanges_setWait (w : Option RegIdx) : OnlyChanges [.wait] s (s.setWait w) := by
  intro p hp; cases p <;> simp_all [Agree]

theorem onlyChanges_setMem (m : Memory) : OnlyChanges [.memory] s (s.setMem m) := by
  intro p hp; cases p <;> simp_all [Agree]

theorem onlyChanges_setScreen (f : Framebuffer) : OnlyChanges [.screen, .dirty] s (s.setScreen f) := by
  intro p hp; cases p <;> simp_all [Agree]

theorem onlyChanges_countDraw : OnlyChanges [.draws] s s.countDraw := by
  intro p hp; cases p <;> simp_all [Agree]

theorem onlyChanges_takeFault (c : Fault) (epc opcode addr : Word) :
    OnlyChanges [.fault] s (s.takeFault c epc opcode addr) := by
  intro p hp; cases p <;> simp_all [Agree]

end

theorem onlyChanges_drawSprite (x y : RegIdx) (bytes : List Byte) (s : State) :
    OnlyChanges [.registers, .screen, .dirty] s (drawSprite x y bytes s) :=
  ((onlyChanges_setScreen s _).mono (by simp)).trans ((onlyChanges_writeReg _ regF _).mono (by simp))

theorem onlyChanges_rndWith (r : Byte) (x : RegIdx) (nn : Byte) (s : State) :
    OnlyChanges [.registers, .draws] s (rndWith r x nn s) :=
  ((onlyChanges_writeReg s x _).mono (by simp)).trans ((onlyChanges_countDraw _).mono (by simp))

end Sys2Proof.Machine
end

section
/-! Everything one instruction can do, said once: a proof about all 34 instructions takes the case distinction of
`Effect` and never unfolds `exec`. -/

namespace Sys2Proof.Machine

/-- The shared form of Dxyn, Fx33, Fx55 and Fx65: the range of `len` bytes at `I` is checked, and the instruction
either raises the range fault or does its work (20_memory.md R63). -/
def rangeChecked (len : Nat) (i : Instr) (s done : State) : Host.Outcome State Fault Refusal :=
  match badAddress s.dataAddress len with
  | some a => .next (s.raiseIn .addressOutOfRange i a)
  | none => .next done

theorem exec_drw (x y : RegIdx) (n : RowCount) (s : State) :
    exec (.drw x y n) s =
      rangeChecked n.val (.drw x y n) s (drawSprite x y (Memory.readBytes s.mem s.dataAddress n.val) s) := rfl

theorem exec_ldB (x : RegIdx) (s : State) :
    exec (.ldB x) s = rangeChecked 3 (.ldB x) s
      (s.setMem (Memory.writeBytes s.mem s.dataAddress (decimalDigits (s.readReg x)))) := rfl

theorem exec_storeRegs (x : RegIdx) (s : State) :
    exec (.storeRegs x) s = rangeChecked (x.val + 1) (.storeRegs x) s
      (s.setMem (Memory.writeBytes s.mem s.dataAddress (s.regsUpTo x))) := rfl

theorem exec_loadRegs (x : RegIdx) (s : State) :
    exec (.loadRegs x) s = rangeChecked (x.val + 1) (.loadRegs x) s
      (State.writeRegsFrom 0 (Memory.readBytes s.mem s.dataAddress (x.val + 1)) s) := rfl

theorem rangeChecked_cases {len : Nat} {i : Instr} {s done t : State} (h : rangeChecked len i s done = .next t) :
    (∃ a, badAddress s.dataAddress len = some a ∧ t = s.raiseIn .addressOutOfRange i a) ∨
      (badAddress s.dataAddress len = none ∧ t = done) := by
  unfold rangeChecked at h
  split at h
  next a ha => exact .inl ⟨a, ha, by cases h; rfl⟩
  next ha => exact .inr ⟨ha, by cases h; rfl⟩

theorem exec_call_cases {nnn : Addr12} {s t : State} (h : exec (.call nnn) s = .next t) :
    (s.sp = 16 ∧ t = s.raiseIn .stackOverflow (.call nnn) 0) ∨
      ∃ hsp : s.sp.val < 16, t = { s with
        stack := s.stack.set s.sp.val s.pc hsp, sp := ⟨s.sp.val + 1, by omega⟩, pc := zextAddr nnn } := by
  change execCall nnn s = _ at h
  unfold execCall at h
  split at h
  next hp => exact .inl ⟨(push_eq_none_iff ..).mp hp, by cases h; rfl⟩
  next u hu =>
    obtain ⟨hsp, rfl⟩ := push_eq_some hu
    exact .inr ⟨hsp, by cases h; rfl⟩

theorem exec_ret_cases {s t : State} (h : exec .ret s = .next t) :
    (s.sp = 0 ∧ t = s.raiseIn .stackUnderflow .ret 0) ∨
      ∃ (d : Nat) (hd : d < 16), s.sp.val = d + 1 ∧ t = { s with sp := ⟨d, by omega⟩, pc := s.stack[d] } := by
  change execRet s = _ at h
  unfold execRet at h
  split at h
  next hp => exact .inl ⟨(pop_eq_none_iff s).mp hp, by cases h; rfl⟩
  next w u hu =>
    obtain ⟨d, hd, hsp, rfl, rfl⟩ := pop_eq_some hu
    exact .inr ⟨d, hd, hsp, by cases h; rfl⟩

/-- What instruction `i`, run in `s`, can leave: one constructor for each kind of write, with the instructions it is
open to and what bounds the values written. -/
inductive Effect (s : State) : Instr → State → Prop
  | register {i : Instr} {x : RegIdx} (b : Byte) (hp : writtenParts i = [.registers]) (hx : WritesRegister i x) :
      Effect s i (s.writeReg x b)
  | registerAndFlag {i : Instr} {x : RegIdx} (b : Byte) (f : Bool) (hp : writtenParts i = [.registers])
      (hx : WritesRegister i x) (hF : WritesRegister i regF) : Effect s i (s.writeResultFlag x b f)
  | random (x : RegIdx) (nn r : Byte) : Effect s (.rnd x nn) (rndWith r x nn s)
  | jump {i : Instr} {w : Word} (hp : writtenParts i = [.counter]) (hw : w.toNat ≤ 0x10FE) : Effect s i (s.setPc w)
  | skip {i : Instr} (c : Bool) (hp : writtenParts i = [.counter]) : Effect s i (s.skipIf c)
  | call (nnn : Addr12) (hsp : s.sp.val < 16) : Effect s (.call nnn) { s with
      stack := s.stack.set s.sp.val s.pc hsp, sp := ⟨s.sp.val + 1, by omega⟩, pc := zextAddr nnn }
  | ret {d : Nat} (hd : d < 16) (hsp : s.sp.val = d + 1) :
      Effect s .ret { s with sp := ⟨d, by omega⟩, pc := s.stack[d] }
  | index {i : Instr} (w : Word) (hp : writtenParts i = [.index]) : Effect s i (s.setI w)
  | clear : Effect s .cls (s.setScreen Framebuffer.clear)
  | draw (x y : RegIdx) (n : RowCount) (bytes : List Byte) : Effect s (.drw x y n) (drawSprite x y bytes s)
  | waitForKey (x : RegIdx) : Effect s (.ldKey x) (s.setWait (some x))
  | delayTimer (x : RegIdx) : Effect s (.ldToDT x) (s.setDT (s.readReg x))
  | soundTimer (x : RegIdx) : Effect s (.ldToST x) (s.setST (s.readReg x))
  | store {i : Instr} {bytes : List Byte} (hp : .memory ∈ writtenParts i) (hlen : bytes.length = storedLength i) :
      Effect s i (s.setMem (Memory.writeBytes s.mem s.dataAddress bytes))
  | load {x : RegIdx} {bytes : List Byte} (hlen : bytes.length = x.val + 1) :
      Effect s (.loadRegs x) (State.writeRegsFrom 0 bytes s)
  | fault {i : Instr} {c : Fault} {a : Word} (hp : .fault ∈ writtenParts i)
      (hr : RecordLegal s ⟨c, s.pc - 2, encodeWord i, a⟩) : Effect s i (s.raiseIn c i a)

theorem toNat_zextAddr (nnn : Addr12) : (zextAddr nnn).toNat = nnn.toNat := by
  rw [zextAddr, BitVec.toNat_setWidth]; omega

theorem toNat_zext16 (b : Byte) : (zext16 b).toNat = b.toNat := by
  rw [zext16, BitVec.toNat_setWidth]; omega

/-- The target of Bnnn is not reduced: at most 0xFFF + 0xFF (10_state.md R26). -/
theorem toNat_zextAddr_add_zext16 (nnn : Addr12) (b : Byte) :
    (zextAddr nnn + zext16 b).toNat = nnn.toNat + b.toNat := by
  rw [BitVec.toNat_add, toNat_zextAddr, toNat_zext16]
  omega

theorem effect_rangeChecked {len : Nat} {i : Instr} {s done t : State} (h : rangeChecked len i s done = .next t)
    (hp : .fault ∈ writtenParts i) (hdone : Effect s i done) : Effect s i t := by
  obtain ⟨a, ha, rfl⟩ | ⟨_, rfl⟩ := rangeChecked_cases h
  · exact .fault hp (badAddress_ge s.I.isLt ha)
  · exact hdone

theorem effect_call {nnn : Addr12} {s t : State} (h : exec (.call nnn) s = .next t) : Effect s (.call nnn) t := by
  obtain ⟨hsp, rfl⟩ | ⟨hsp, rfl⟩ := exec_call_cases h
  · exact .fault (by simp [writtenParts]) ⟨rfl, opClass_formatNNN 2 nnn, hsp⟩
  · exact .call nnn hsp

theorem effect_ret {s t : State} (h : exec .ret s = .next t) : Effect s .ret t := by
  obtain ⟨hsp, rfl⟩ | ⟨d, hd, hsp, rfl⟩ := exec_ret_cases h
  · exact .fault (by simp [writtenParts]) ⟨rfl, rfl, hsp⟩
  · exact .ret hd hsp

/-- Every instruction has one of the effects of `Effect`. -/
theorem exec_effect {s t : State} : {i : Instr} → exec i s = .next t → Effect s i t
  | .cls, rfl => .clear
  | .ret, h => effect_ret h
  | .jp nnn, rfl => .jump rfl (by have := nnn.isLt; rw [toNat_zextAddr]; omega)
  | .call _, h => effect_call h
  | .seImm _ _, rfl => .skip _ rfl
  | .sneImm _ _, rfl => .skip _ rfl
  | .seReg _ _, rfl => .skip _ rfl
  | .sneReg _ _, rfl => .skip _ rfl
  | .ldImm _ _, rfl => .register _ rfl rfl
  | .addImm _ _, rfl => .register _ rfl rfl
  | .ldReg _ _, rfl => .register _ rfl rfl
  | .orReg _ _, rfl => .register _ rfl rfl
  | .andReg _ _, rfl => .register _ rfl rfl
  | .xorReg _ _, rfl => .register _ rfl rfl
  | .addReg _ _, rfl => .registerAndFlag _ _ rfl (.inl rfl) (.inr rfl)
  | .subReg _ _, rfl => .registerAndFlag _ _ rfl (.inl rfl) (.inr rfl)
  | .shr _ _, rfl => .registerAndFlag _ _ rfl (.inl rfl) (.inr rfl)
  | .subn _ _, rfl => .registerAndFlag _ _ rfl (.inl rfl) (.inr rfl)
  | .shl _ _, rfl => .registerAndFlag _ _ rfl (.inl rfl) (.inr rfl)
  | .ldI _, rfl => .index _ rfl
  | .jpV0 nnn, rfl => .jump rfl (by
      have := nnn.isLt; have := (s.readReg 0).isLt; rw [toNat_zextAddr_add_zext16]; omega)
  | .rnd x nn, rfl => .random x nn _
  | .drw x y n, h => effect_rangeChecked (exec_drw x y n s ▸ h) (by simp [writtenParts]) (.draw x y n _)
  | .skp _, rfl => .skip _ rfl
  | .sknp _, rfl => .skip _ rfl
  | .ldFromDT _, rfl => .register _ rfl rfl
  | .ldKey x, rfl => .waitForKey x
  | .ldToDT x, rfl => .delayTimer x
  | .ldToST x, rfl => .soundTimer x
  | .addI _, rfl => .index _ rfl
  | .ldF _, rfl => .index _ rfl
  | .ldB x, h => effect_rangeChecked (exec_ldB x s ▸ h) (by simp [writtenParts])
      (.store (by simp [writtenParts]) rfl)
  | .storeRegs x, h => effect_rangeChecked (exec_storeRegs x s ▸ h) (by simp [writtenParts])
      (.store (by simp [writtenParts]) (length_regsUpTo s x))
  | .loadRegs x, h => effect_rangeChecked (exec_loadRegs x s ▸ h) (by simp [writtenParts])
      (.load (Memory.length_readBytes ..))

end Sys2Proof.Machine
end

section
/-! The invariant of the machine is kept by every instruction, every step and every operation of the host
(10_state.md R26, R37; 60_exceptions.md R210). -/

namespace Sys2Proof.Machine

/-- What holds of the state an instruction runs in, after the fetch and the pre-advance: the machine is running, and
`pc` is at most 0x1000, so that a call pushes a legal return address. -/
structure ReadyToExecute (s : State) : Prop where
  canonical : MemoryCanonical s
  noFault : s.fault = none
  noWait : s.wait = none
  pcLe : s.pc.toNat ≤ 0x1000
  stackLe : ∀ j : Fin 16, s.stack[j.val].toNat ≤ 0x1000

theorem Invariant.canonical {s : State} (h : Invariant s) : MemoryCanonical s := h.1

theorem Invariant.modesExclusive {s : State} (h : Invariant s) : ModesExclusive s := h.2.1

theorem toNat_add_two {w : Word} (h : w.toNat ≤ 0x1000) : (w + 2).toNat = w.toNat + 2 := by bv_omega

theorem invariant_of_noFault {s : State} (hmem : MemoryCanonical s) (hf : s.fault = none) (hc : CounterBounded s) :
    Invariant s :=
  ⟨hmem, .inl hf, fun r hr => absurd (hf.symm.trans hr) (by simp), hc⟩

/-- An operation that leaves the fault register, the counter and the stack alone keeps the invariant when it keeps the
canonical form and does not make a fault and a wait meet. -/
theorem Invariant.of_same_control {s t : State} (h : Invariant s) (hmem : MemoryCanonical t) (hmodes : ModesExclusive t)
    (hfault : t.fault = s.fault) (hpc : t.pc = s.pc) (hstack : t.stack = s.stack) (hsp : t.sp = s.sp) :
    Invariant t := by
  obtain ⟨_, _, hlegal, hcounter⟩ := h
  refine ⟨hmem, hmodes, ?_, ?_⟩
  · unfold FaultRegisterLegal RecordLegal RecordPrecise at *
    rwa [hfault, hpc, hsp]
  · unfold CounterBounded at *
    rwa [hpc, hstack]

theorem invariant_takeFault {s : State} (hmem : MemoryCanonical s) (hw : s.wait = none) (hc : CounterBounded s)
    {c : Fault} {epc opcode addr : Word} (hlegal : RecordLegal s ⟨c, epc, opcode, addr⟩)
    (hprecise : RecordPrecise s ⟨c, epc, opcode, addr⟩) : Invariant (s.takeFault c epc opcode addr) := by
  refine ⟨hmem, .inr hw, ?_, hc⟩
  intro r hr
  obtain rfl := Option.some.inj hr
  exact ⟨hlegal, hprecise⟩

namespace ReadyToExecute

variable {s : State} (h : ReadyToExecute s)
include h

theorem counterBounded : CounterBounded s := ⟨h.pcLe.trans (by decide), h.stackLe⟩

theorem invariant : Invariant s := invariant_of_noFault h.canonical h.noFault h.counterBounded

/-- What leaves memory, fault register and stack alone and keeps `pc` in its bound gives the invariant. -/
theorem invariant_of_pc {t : State} (hmem : t.mem = s.mem) (hf : t.fault = s.fault) (hstack : t.stack = s.stack)
    (hpc : t.pc.toNat ≤ 0x10FE) : Invariant t := by
  refine invariant_of_noFault ?_ (hf.trans h.noFault) ⟨hpc, ?_⟩
  · unfold MemoryCanonical; rw [hmem]; exact h.canonical
  · rw [hstack]; exact h.stackLe

theorem invariant_of_same_pc {t : State} (hmem : t.mem = s.mem) (hf : t.fault = s.fault) (hstack : t.stack = s.stack)
    (hpc : t.pc = s.pc) : Invariant t :=
  h.invariant_of_pc hmem hf hstack (hpc ▸ h.pcLe.trans (by decide))

theorem invariant_skipIf (c : Bool) : Invariant (s.skipIf c) := by
  have hpc := h.pcLe
  refine h.invariant_of_pc (by simp) (by simp) (by simp) ?_
  rw [State.skipIf_pc]
  split
  · rw [toNat_add_two hpc]; omega
  · omega

theorem invariant_call (nnn : Addr12) (hsp : s.sp.val < 16) : Invariant { s with
    stack := s.stack.set s.sp.val s.pc hsp, sp := ⟨s.sp.val + 1, by omega⟩, pc := zextAddr nnn } := by
  refine invariant_of_noFault h.canonical h.noFault ⟨?_, fun j => ?_⟩
  · have := nnn.isLt
    simp only [toNat_zextAddr]
    omega
  · simp only [Vector.getElem_set]
    split
    · exact h.pcLe
    · exact h.stackLe j

/-- Every instruction leaves a state with the invariant. -/
theorem invariant_of_effect {i : Instr} {t : State} (he : Effect s i t) : Invariant t := by
  cases he with
  | jump _ hw => exact h.invariant_of_pc rfl rfl rfl hw
  | skip c => exact h.invariant_skipIf c
  | call nnn hsp => exact h.invariant_call nnn hsp
  | ret hd => exact h.invariant_of_pc rfl rfl rfl ((h.stackLe ⟨_, hd⟩).trans (by decide))
  | store => exact invariant_of_noFault (Memory.wf_writeBytes h.canonical ..) h.noFault h.counterBounded
  | load =>
    rw [writeRegsFrom_eq]
    exact h.invariant_of_same_pc rfl rfl rfl rfl
  | fault _ hr =>
    exact invariant_takeFault h.canonical h.noWait h.counterBounded hr (.inl (BitVec.sub_add_cancel ..).symm)
  | _ => exact h.invariant_of_same_pc rfl rfl rfl rfl

end ReadyToExecute

theorem pc_le_of_fetch {s : State} {w : Word} (h : s.fetch = .word w) : s.pc.toNat + 1 ≤ 0xFFF := by
  by_contra hgt
  rw [fetch_of_gt s (by omega)] at h
  cases h

/-- The two bytes a running step fetches lie in memory, so the pre-advance leaves `pc` at 0x1000 at most. -/
theorem Invariant.ready {s : State} {w : Word} (h : Invariant s) (hf : s.fault = none) (hw : s.wait = none)
    (hfetch : s.fetch = .word w) : ReadyToExecute s.preAdvance := by
  obtain ⟨hmem, -, -, -, hstack⟩ := h
  have hpc := pc_le_of_fetch hfetch
  have hadvanced : s.preAdvance.pc.toNat ≤ 0x1000 := by
    rw [State.preAdvance_pc, toNat_add_two (by omega)]; omega
  exact ⟨hmem, hf, hw, hadvanced, hstack⟩

theorem fetch_outOfRange_ge {s : State} {a : Word} (h : s.fetch = .outOfRange a) : 0x1000 ≤ a.toNat := by
  unfold State.fetch at h
  split at h
  next b hb => cases h; exact badAddress_ge s.pc.isLt hb
  next => cases h

/-- One step keeps the invariant, whichever of the five things a step can do it does. -/
theorem Invariant.step {s t : State} (h : Invariant s) (hst : step s = .next t) : Invariant t := by
  obtain ⟨r, -, hs⟩ | ⟨x, -, -, hs⟩ | ⟨a, hf, hw, hfetch, hs⟩ | ⟨w, i, hf, hw, hfetch, -, hs⟩ |
    ⟨w, u, hf, hw, hfetch, -, hs⟩ := step_cases s
  · cases hs.symm.trans hst; exact h
  · cases hs.symm.trans hst; exact h
  · cases hs.symm.trans hst
    obtain ⟨hmem, -, -, hcounter⟩ := h
    exact invariant_takeFault hmem hw hcounter (fetch_outOfRange_ge hfetch) (.inr ⟨rfl, rfl, rfl⟩)
  · exact (h.ready hf hw hfetch).invariant_of_effect (exec_effect (hs.symm.trans hst))
  · cases hs.symm.trans hst; exact (h.ready hf hw hfetch).invariant

/-! ### The operations of the host -/

theorem invariant_resetFrom (s : State) : Invariant s.resetFrom :=
  have hreset : CounterBounded State.reset := ⟨by decide, by decide⟩
  invariant_of_noFault Memory.wf_nil rfl hreset

theorem Invariant.setMem {s : State} (h : Invariant s) {m : Memory} (hm : Memory.wf m = true) :
    Invariant (s.setMem m) :=
  h.of_same_control hm h.modesExclusive rfl rfl rfl rfl

theorem Invariant.setKey {s : State} (h : Invariant s) (k : BitVec 16) : Invariant (s.setKey k) :=
  h.of_same_control h.canonical h.modesExclusive rfl rfl rfl rfl

theorem Invariant.press {s : State} (h : Invariant s) (k : KeyCode) : Invariant (press k s) := by
  unfold Machine.press
  split
  next => exact h.of_same_control h.canonical (.inr rfl) rfl rfl rfl rfl
  next => exact h.setKey _
  next => exact h.setKey _

theorem Invariant.setOneKey {s : State} (h : Invariant s) (w : BitVec 16) (k : KeyCode) :
    Invariant (setOneKey w s k) := by
  unfold Machine.setOneKey
  split
  next => exact h.press k
  next =>
    split
    next => exact h.setKey _
    next => exact h

theorem load_eq_some {bytes : List Byte} {s t : State} (h : load bytes s = some t) :
    t = s.setMem (Memory.writeBytes s.mem Config.progBase bytes) := by
  unfold load at h
  split at h
  · exact (Option.some.inj h).symm
  · cases h

theorem applyOp_load_cases {bytes : List Byte} {s t : State} {r : OpResult}
    (h : applyOp (.load bytes) s = .next (t, r)) :
    t = s.setMem (Memory.writeBytes s.mem Config.progBase bytes) ∨ t = s := by
  unfold applyOp at h
  simp only at h
  split at h
  next u hu => cases h; exact .inl (load_eq_some hu)
  next => cases h; exact .inr rfl

theorem applyOp_step_eq {s t : State} {r : OpResult} (h : applyOp .step s = .next (t, r)) :
    step s = .next t ∧ r = t.report.result := by
  change afterStep (step s) = _ at h
  cases hs : step s with
  | next u => rw [hs] at h; cases h; exact ⟨rfl, rfl⟩
  | fault => rw [hs] at h; cases h
  | refused => rw [hs] at h; cases h

theorem Invariant.applyOp {s t : State} {r : OpResult} (h : Invariant s) {o : HostOp}
    (ho : applyOp o s = .next (t, r)) : Invariant t := by
  cases o with
  | reset => cases ho; exact invariant_resetFrom s
  | load bytes =>
    obtain rfl | rfl := applyOp_load_cases ho
    · exact h.setMem (Memory.wf_writeBytes h.canonical ..)
    · exact h
  | step => exact h.step (applyOp_step_eq ho).1
  | advanceTimers => cases ho; exact h.of_same_control h.canonical h.modesExclusive rfl rfl rfl rfl
  | press k => cases ho; exact h.press k
  | release k => cases ho; exact h.setKey _
  | setKeys w =>
    cases ho
    exact List.foldlRecOn keyCodes _ h fun _ hu k _ => hu.setOneKey w k
  | clearDirty => cases ho; exact h.of_same_control h.canonical h.modesExclusive rfl rfl rfl rfl

/-- A schedule that runs to a state performs its first operation, and the rest from there. -/
theorem runOps_cons {o : HostOp} {os : List HostOp} {s t : State} (h : runOps (o :: os) s = .next t) :
    ∃ u r, applyOp o s = .next (u, r) ∧ runOps os u = .next t := by
  rw [runOps] at h
  cases ho : applyOp o s with
  | next p => rw [ho] at h; exact ⟨p.1, p.2, rfl, h⟩
  | fault => rw [ho] at h; cases h
  | refused => rw [ho] at h; cases h

theorem Invariant.runOps {ops : List HostOp} {s t : State} (h : Invariant s) (hr : runOps ops s = .next t) :
    Invariant t := by
  induction ops generalizing s with
  | nil => cases hr; exact h
  | cons o os ih =>
    obtain ⟨u, r, ho, hu⟩ := runOps_cons hr
    exact ih (h.applyOp ho) hu

/-- Settles O51: `Invariant.step`, by the five cases of a step and the kinds of effect of an instruction. -/
theorem stepKeepsTheInvariant : Obligations.StepKeepsTheInvariant :=
  fun _ _ h hst => h.step hst

/-- Settles O52: `Invariant.runOps`, by induction on the schedule. -/
theorem schedulesKeepTheInvariant : Obligations.SchedulesKeepTheInvariant :=
  fun _ _ _ h hr => h.runOps hr

end Sys2Proof.Machine
end

section
/-! The frame of every instruction (10_state.md R21, R23, R41), read off the kinds of effect. -/

namespace Sys2Proof.Machine

theorem Effect.onlyChanges {s t : State} {i : Instr} (he : Effect s i t) : OnlyChanges (writtenParts i) s t := by
  cases he with
  | register b hp => exact hp ▸ onlyChanges_writeReg s _ b
  | registerAndFlag b f hp => exact hp ▸ onlyChanges_writeResultFlag s _ b f
  | random x nn r => exact onlyChanges_rndWith r x nn s
  | jump hp => exact hp ▸ onlyChanges_setPc s _
  | skip c hp => exact hp ▸ onlyChanges_skipIf s c
  | call nnn hsp => intro p hp; cases p <;> simp_all [Agree, writtenParts, State.readReg]
  | ret hd hsp => intro p hp; cases p <;> simp_all [Agree, writtenParts, State.readReg]
  | index w hp => exact hp ▸ onlyChanges_setI s w
  | clear => exact onlyChanges_setScreen s _
  | draw x y n bytes => exact (onlyChanges_drawSprite x y bytes s).mono (by simp [writtenParts])
  | waitForKey x => exact onlyChanges_setWait s _
  | delayTimer x => exact onlyChanges_setDT s _
  | soundTimer x => exact onlyChanges_setST s _
  | store hp => exact (onlyChanges_setMem s _).mono (by simpa using hp)
  | load => exact (onlyChanges_writeRegsFrom s 0 _).mono (by simp [writtenParts])
  | fault hp => exact (onlyChanges_takeFault s _ _ _ _).mono (by simpa using hp)

/-- A register that the instruction does not write reads as before: its destination is another one, or it writes
none at all. -/
theorem Effect.readReg_eq {s t : State} {i : Instr} (he : Effect s i t) {r : RegIdx} (hr : ¬WritesRegister i r) :
    t.readReg r = s.readReg r := by
  cases he with
  | register b _ hx => exact State.readReg_writeReg_other _ _ _ _ (by rintro rfl; exact hr hx)
  | registerAndFlag b f _ hx hF =>
    rw [State.readReg_writeResultFlag, if_neg (by rintro rfl; exact hr hF), if_neg (by rintro rfl; exact hr hx)]
  | random x nn b => exact State.readReg_writeReg_other _ _ _ _ hr
  | draw x y n bytes => exact State.readReg_writeReg_other _ _ _ _ hr
  | load hlen =>
    rename_i x bytes
    have hgt : ¬r.val ≤ x.val := hr
    rw [readReg_writeRegsFrom _ _ _ (by omega), if_neg (by omega)]
  | skip c => exact State.readReg_skipIf s r c
  | _ => rfl

/-- Only a push writes a return address, the one at `sp` (10_state.md R28). -/
theorem Effect.stack_eq {s t : State} {i : Instr} (he : Effect s i t) {j : Fin 16} (hj : j.val ≠ s.sp.val) :
    t.stack[j.val] = s.stack[j.val] := by
  cases he with
  | call nnn hsp => exact Vector.getElem_set_ne hsp j.isLt hj.symm
  | skip c => rw [State.skipIf_stack]
  | load => rw [writeRegsFrom_eq]
  | _ => rfl

/-- Only a store writes memory, the bytes from the effective address on (43_index_memory.md R154, R155). -/
theorem Effect.read_eq {s t : State} {i : Instr} (he : Effect s i t) {a : Nat}
    (ha : a < s.dataAddress ∨ s.dataAddress + storedLength i ≤ a) : Memory.read t.mem a = Memory.read s.mem a := by
  cases he with
  | store _ hlen => exact Memory.read_writeBytes_other _ _ _ (hlen ▸ ha)
  | skip c => rw [State.skipIf_mem]
  | load => rw [writeRegsFrom_eq]
  | _ => rfl

/-- Settles O40: each of the four frames is read off the effect of the instruction. -/
theorem instructionsWriteOnlyTheirParts : Obligations.InstructionsWriteOnlyTheirParts := by
  intro i s t h
  have he := exec_effect h
  exact ⟨he.onlyChanges, fun _ hr => he.readReg_eq hr, fun _ hj => he.stack_eq hj, fun _ ha => he.read_eq ha⟩

end Sys2Proof.Machine
end

section
/-! No instruction reads `dirty` or ST (10_state.md R30, R32): the run from a state with other values in the two is the
same run, but for the two. -/

namespace Sys2Proof.Machine

/-- The state with other values in `dirty` and ST. -/
def State.withDirtyAndST (s : State) (d : Bool) (b : Byte) : State := { s with dirty := d, ST := b }

/-- The outcome is a next state that differs from `t` at most in `dirty` and ST. -/
def LeadsToAlike (o : Host.Outcome State Fault Refusal) (t : State) : Prop :=
  ∃ u, o = .next u ∧ t = u.withDirtyAndST t.dirty t.ST

section
variable (s : State) (d : Bool) (b : Byte)

theorem mode_withDirtyAndST : (s.withDirtyAndST d b).mode = s.mode := rfl

theorem fetch_withDirtyAndST : (s.withDirtyAndST d b).fetch = s.fetch := rfl

theorem skipIf_withDirtyAndST (c : Bool) : (s.withDirtyAndST d b).skipIf c = (s.skipIf c).withDirtyAndST d b := by
  cases c <;> rfl

theorem writeRegsFrom_withDirtyAndST (k : Nat) (bs : List Byte) :
    State.writeRegsFrom k bs (s.withDirtyAndST d b) = (State.writeRegsFrom k bs s).withDirtyAndST d b := by
  induction bs generalizing k s with
  | nil => rfl
  | cons v bs ih =>
    rw [State.writeRegsFrom, State.writeRegsFrom]
    split
    · exact ih (s.writeReg _ v) (k + 1)
    · rfl

theorem writeRegsFrom_alike (k : Nat) (bs : List Byte) :
    State.writeRegsFrom k bs s = (State.writeRegsFrom k bs (s.withDirtyAndST d b)).withDirtyAndST
      (State.writeRegsFrom k bs s).dirty (State.writeRegsFrom k bs s).ST := by
  rw [writeRegsFrom_withDirtyAndST]; rfl

variable {s}

/-- The range check reads neither, so the two runs raise the fault together, or both do their work. -/
theorem rangeChecked_withDirtyAndST {len : Nat} {i : Instr} {done done' t : State}
    (h : rangeChecked len i s done = .next t) (hdone : done = done'.withDirtyAndST done.dirty done.ST) :
    LeadsToAlike (rangeChecked len i (s.withDirtyAndST d b) done') t := by
  have hsame : (s.withDirtyAndST d b).dataAddress = s.dataAddress := rfl
  obtain ⟨a, ha, rfl⟩ | ⟨ha, rfl⟩ := rangeChecked_cases h
  · exact ⟨_, by rw [rangeChecked, hsame, ha], rfl⟩
  · exact ⟨done', by rw [rangeChecked, hsame, ha], hdone⟩

theorem exec_call_withDirtyAndST {nnn : Addr12} {t : State} (h : exec (.call nnn) s = .next t) :
    LeadsToAlike (exec (.call nnn) (s.withDirtyAndST d b)) t := by
  change LeadsToAlike (execCall nnn _) t
  unfold execCall
  obtain ⟨hsp, rfl⟩ | ⟨hsp, rfl⟩ := exec_call_cases h
  · rw [(push_eq_none_iff (s.withDirtyAndST d b) _).mpr hsp]; exact ⟨_, rfl, rfl⟩
  · rw [push_of_lt (s.withDirtyAndST d b) _ hsp]; exact ⟨_, rfl, rfl⟩

theorem exec_ret_withDirtyAndST {t : State} (h : exec .ret s = .next t) :
    LeadsToAlike (exec .ret (s.withDirtyAndST d b)) t := by
  change LeadsToAlike (execRet _) t
  unfold execRet
  obtain ⟨hsp, rfl⟩ | ⟨k, hk, hsp, rfl⟩ := exec_ret_cases h
  · rw [(pop_eq_none_iff (s.withDirtyAndST d b)).mpr hsp]; exact ⟨_, rfl, rfl⟩
  · rw [pop_of_pos (s.withDirtyAndST d b) k hk hsp]; exact ⟨_, rfl, rfl⟩

theorem skipIf_alike (c : Bool) : LeadsToAlike (.next ((s.withDirtyAndST d b).skipIf c)) (s.skipIf c) :=
  ⟨_, rfl, by rw [skipIf_withDirtyAndST]; rfl⟩

theorem exec_withDirtyAndST {i : Instr} {t : State} (h : exec i s = .next t) :
    LeadsToAlike (exec i (s.withDirtyAndST d b)) t := by
  cases i with
  | ret => exact exec_ret_withDirtyAndST d b h
  | call nnn => exact exec_call_withDirtyAndST d b h
  | seImm | sneImm | seReg | sneReg | skp | sknp => cases h; exact skipIf_alike d b _
  | drw | ldB | storeRegs => exact rangeChecked_withDirtyAndST d b h rfl
  | loadRegs => exact rangeChecked_withDirtyAndST d b h (writeRegsFrom_alike s d b _ _)
  | _ => cases h; exact ⟨_, rfl, rfl⟩

theorem step_withDirtyAndST {t : State} : step s = .next t → LeadsToAlike (step (s.withDirtyAndST d b)) t := by
  unfold step
  rw [mode_withDirtyAndST, fetch_withDirtyAndST]
  cases s.mode with
  | faulted => rintro ⟨⟩; exact ⟨_, rfl, rfl⟩
  | waitingForKey => rintro ⟨⟩; exact ⟨_, rfl, rfl⟩
  | running =>
    cases s.fetch with
    | outOfRange a => rintro ⟨⟩; exact ⟨_, rfl, rfl⟩
    | word w =>
      cases hd : decodeWord w with
      | instr i => simp only [hd]; exact exec_withDirtyAndST d b
      | unassigned u => simp only [hd]; rintro ⟨⟩; exact ⟨_, rfl, rfl⟩

end

/-- Settles O43: `step_withDirtyAndST`, by the mode, the fetched word and the instruction. -/
theorem dirtyAndSoundTimerAreNotRead : Obligations.DirtyAndSoundTimerAreNotRead :=
  fun _ _ d b h => step_withDirtyAndST d b h

end Sys2Proof.Machine
end

section
/-! The transitions between the modes (10_state.md R37). -/

namespace Sys2Proof.Machine

theorem mode_eq_of_same {s t : State} (hf : t.fault = s.fault) (hw : t.wait = s.wait) : t.mode = s.mode := by
  unfold State.mode; rw [hf, hw]

/-- An instruction leaves a running machine running but for Fx0A, which makes it wait, and a fault. -/
theorem Effect.mode {s t : State} {i : Instr} (he : Effect s i t) :
    t.mode = s.mode ∨ (∃ x, i = .ldKey x ∧ t.wait = some x ∧ t.fault = s.fault) ∨ ∃ c, t.mode = .faulted c := by
  cases he with
  | waitForKey x => exact .inr (.inl ⟨x, rfl, rfl, rfl⟩)
  | fault => exact .inr (.inr ⟨_, rfl⟩)
  | skip c => exact .inl (mode_eq_of_same (State.skipIf_fault s c) (State.skipIf_wait s c))
  | load => rw [writeRegsFrom_eq]; exact .inl rfl
  | _ => exact .inl rfl

/-- What a step can do to the mode. -/
theorem step_mode {s t : State} (h : step s = .next t) :
    t.mode = s.mode ∨ (s.mode = .running ∧
      ((∃ x, NextInstr s (.ldKey x) ∧ t.mode = .waitingForKey x) ∨ ∃ c, t.mode = .faulted c)) := by
  obtain ⟨r, -, hs⟩ | ⟨x, -, -, hs⟩ | ⟨a, hf, hw, -, hs⟩ | ⟨w, i, hf, hw, hfetch, hd, hs⟩ |
    ⟨w, u, -, -, -, -, hs⟩ := step_cases s
  · cases hs.symm.trans h; exact .inl rfl
  · cases hs.symm.trans h; exact .inl rfl
  · cases hs.symm.trans h
    exact .inr ⟨(mode_running_iff s).mpr ⟨hf, hw⟩, .inr ⟨_, rfl⟩⟩
  · obtain hm | ⟨x, rfl, hwait, hfault⟩ | hc := (exec_effect (hs.symm.trans h)).mode
    · exact .inl hm
    · exact .inr ⟨(mode_running_iff s).mpr ⟨hf, hw⟩,
        .inl ⟨x, ⟨w, hfetch, hd⟩, (mode_waiting_iff t x).mpr ⟨hfault.trans hf, hwait⟩⟩⟩
    · exact .inr ⟨(mode_running_iff s).mpr ⟨hf, hw⟩, .inr hc⟩
  · cases hs.symm.trans h; exact .inl rfl

theorem report_of_mode_faulted {s : State} {c : Fault} (h : s.mode = .faulted c) : s.report = .err c := by
  obtain ⟨r, hr, rfl⟩ := (mode_faulted_iff s c).mp h
  unfold State.report
  rw [hr]

/-- What a key event can do to the mode: it stays, or a wait ends. -/
def StaysOrEndsWait (s t : State) : Prop :=
  t.mode = s.mode ∨ ((∃ x, s.mode = .waitingForKey x) ∧ t.mode = .running)

theorem StaysOrEndsWait.trans {s t u : State} (hst : StaysOrEndsWait s t) (htu : StaysOrEndsWait t u) :
    StaysOrEndsWait s u := by
  unfold StaysOrEndsWait at *
  obtain hm | ⟨hs, ht⟩ := hst
  · rwa [hm] at htu
  · obtain hm | ⟨-, hu⟩ := htu
    · exact .inr ⟨hs, hm.trans ht⟩
    · exact .inr ⟨hs, hu⟩

theorem staysOrEndsWait_press (k : KeyCode) (s : State) : StaysOrEndsWait s (press k s) := by
  unfold press
  split
  next r hm =>
    exact .inr ⟨⟨r, hm⟩, (mode_running_iff _).mpr ⟨((mode_waiting_iff s r).mp hm).1, rfl⟩⟩
  next => exact .inl rfl
  next => exact .inl rfl

theorem staysOrEndsWait_setOneKey (w : BitVec 16) (s : State) (k : KeyCode) :
    StaysOrEndsWait s (setOneKey w s k) := by
  unfold setOneKey
  split
  next => exact staysOrEndsWait_press k s
  next => split <;> exact .inl rfl

theorem staysOrEndsWait_setKeys (w : BitVec 16) (s : State) : StaysOrEndsWait s (setKeys w s) :=
  List.foldlRecOn (motive := StaysOrEndsWait s) keyCodes _ (.inl rfl) fun t ht k _ =>
    ht.trans (staysOrEndsWait_setOneKey w t k)

/-- The transitions of 10_state.md R37, all of them: the mode stays, reset makes the core run, a key event ends a wait,
or a step leaves mode Running. -/
theorem applyOp_mode {o : HostOp} {s t : State} {r : OpResult} (h : applyOp o s = .next (t, r)) :
    t.mode = s.mode ∨ (o = .reset ∧ t.mode = .running) ∨
    (((∃ k, o = .press k) ∨ ∃ w, o = .setKeys w) ∧ (∃ x, s.mode = .waitingForKey x) ∧ t.mode = .running) ∨
    (o = .step ∧ s.mode = .running ∧
      ((∃ x, NextInstr s (.ldKey x) ∧ t.mode = .waitingForKey x) ∨ ∃ c, t.mode = .faulted c ∧ r = .err c)) := by
  cases o with
  | reset => cases h; exact .inr (.inl ⟨rfl, rfl⟩)
  | load bytes => obtain rfl | rfl := applyOp_load_cases h <;> exact .inl rfl
  | step =>
    obtain ⟨hst, rfl⟩ := applyOp_step_eq h
    obtain hm | ⟨hs, hx | ⟨c, hc⟩⟩ := step_mode hst
    · exact .inl hm
    · exact .inr (.inr (.inr ⟨rfl, hs, .inl hx⟩))
    · exact .inr (.inr (.inr ⟨rfl, hs, .inr ⟨c, hc, by rw [report_of_mode_faulted hc]; rfl⟩⟩))
  | press k =>
    cases h
    exact (staysOrEndsWait_press k s).imp_right fun hend => .inr (.inl ⟨.inl ⟨k, rfl⟩, hend⟩)
  | setKeys w =>
    cases h
    exact (staysOrEndsWait_setKeys w s).imp_right fun hend => .inr (.inl ⟨.inr ⟨w, rfl⟩, hend⟩)
  | advanceTimers | release | clearDirty => cases h; exact .inl rfl

/-- Settles O48: the mode by its three laws, the transitions by `applyOp_mode`, one starting mode at a time. -/
theorem modeTransitions : Obligations.ModeTransitions := by
  refine ⟨fun s => ⟨mode_faulted_iff s, mode_waiting_iff s, mode_running_iff s⟩, rfl, ?_⟩
  intro o s t r h
  refine ⟨by rintro rfl; cases h; rfl, ?_⟩
  obtain hm | ⟨ho, ht⟩ | ⟨ho, ⟨y, hs⟩, ht⟩ | ⟨ho, hs, hst⟩ := applyOp_mode h
  · rw [hm]
    exact ⟨.inl, fun _ => .inl, fun _ => .inl⟩
  · exact ⟨fun _ => .inl ht, fun _ _ => .inr ⟨ht, .inl ho⟩, fun _ _ => .inr ⟨ht, ho⟩⟩
  · rw [hs]
    exact ⟨fun _ => .inl ht, fun _ _ => .inr ⟨ht, .inr ho⟩, nofun⟩
  · rw [hs]
    exact ⟨fun _ => .inr ⟨ho, hst⟩, nofun, nofun⟩

end Sys2Proof.Machine
end

section
/-! The bytes Fx55 leaves in memory (43_index_memory.md R155), and the fetch that reads them (20_memory.md R71). -/

namespace Sys2Proof.Machine

theorem rangeChecked_of_le {len : Nat} {i : Instr} {s : State} (done : State)
    (h : s.dataAddress + len ≤ Config.memSize) : rangeChecked len i s done = .next done := by
  rw [rangeChecked, (badAddress_none_iff ..).mpr (.inr h)]

theorem exec_storeRegs_of_le {x : RegIdx} {s : State} (h : s.dataAddress + x.val ≤ 0xFFF) :
    exec (.storeRegs x) s = .next (s.setMem (Memory.writeBytes s.mem s.dataAddress (s.regsUpTo x))) := by
  rw [exec_storeRegs, rangeChecked_of_le]
  unfold Config.memSize
  omega

/-- Register `r` of a register store lies `r` bytes above the address of the store. -/
theorem read_writeBytes_regsUpTo {x r : RegIdx} {s : State} (hmem : MemoryCanonical s)
    (hrange : s.dataAddress + x.val ≤ 0xFFF) (hr : r.val ≤ x.val) :
    Memory.read (Memory.writeBytes s.mem s.dataAddress (s.regsUpTo x)) (s.dataAddress + r.val) = s.readReg r := by
  have hfits : s.dataAddress + (s.regsUpTo x).length ≤ Config.memSize := by
    rw [length_regsUpTo]; unfold Config.memSize; omega
  have hin : s.dataAddress ≤ s.dataAddress + r.val ∧
      s.dataAddress + r.val < s.dataAddress + (s.regsUpTo x).length := by
    rw [length_regsUpTo]; omega
  rw [Memory.read_writeBytes hmem _ _ hfits, if_pos hin, Nat.add_sub_cancel_left, getD_regsUpTo s x r hr]

/-- Settles O28: the store leaves `pc` alone, and the two bytes it fetches are the stored registers. -/
theorem storeIsSeenByTheNextFetch : Obligations.StoreIsSeenByTheNextFetch := by
  intro x a b s t hmem hrange hab hb hpc h
  have hpc' : s.pc.toNat + 1 = s.dataAddress + b.val := by omega
  cases (exec_storeRegs_of_le hrange).symm.trans h
  rw [fetch_of_le _ (by rw [State.setMem_pc]; omega), State.setMem_pc, State.setMem_mem, hpc', hpc,
    read_writeBytes_regsUpTo hmem hrange (by omega), read_writeBytes_regsUpTo hmem hrange hb]

end Sys2Proof.Machine
end

section
/-! The decoder against the encoder and the opcode table (30_encoding.md R90, R91, R94), and the words it rejects
(R95). -/

namespace Sys2Proof

/-! ### The instruction of an encoded word -/

theorem fieldN_formatXYN_nibble (c : BitVec 4) (x y : RegIdx) (n : RowCount) :
    fieldN (formatXYN c x y (nibble n)) = n :=
  Fin.ext (fieldN_formatXYN c x y (nibble n))

theorem decodeWord_encodeWord (i : Instr) : decodeWord (encodeWord i) = .instr i := by
  cases i with
  | cls | ret => rfl
  | jp | call | ldI | jpV0 =>
    simp only [encodeWord, decodeWord, opClass_formatNNN, fieldNNN_formatNNN]; rfl
  | seImm | sneImm | ldImm | addImm | rnd =>
    simp only [encodeWord, decodeWord, opClass_formatXNN, fieldX_formatXNN, fieldNN_formatXNN]; rfl
  | seReg | sneReg =>
    simp only [encodeWord, decodeWord, opClass_formatXYN, fieldX_formatXYN, fieldY_formatXYN, fieldN_formatXYN]; rfl
  | drw =>
    simp only [encodeWord, decodeWord, opClass_formatXYN, fieldX_formatXYN, fieldY_formatXYN, fieldN_formatXYN_nibble]
    rfl
  | ldReg | orReg | andReg | xorReg | addReg | subReg | shr | subn | shl =>
    simp only [encodeWord, decodeWord, decodeClass8, opClass_formatXYN, fieldX_formatXYN, fieldY_formatXYN,
      fieldN_formatXYN]
    rfl
  | skp | sknp =>
    simp only [encodeWord, decodeWord, decodeClassE, opClass_formatXNN, fieldX_formatXNN, fieldNN_formatXNN]; rfl
  | ldFromDT | ldKey | ldToDT | ldToST | addI | ldF | ldB | storeRegs | loadRegs =>
    simp only [encodeWord, decodeWord, decodeClassF, opClass_formatXNN, fieldX_formatXNN, fieldNN_formatXNN]; rfl

/-- Settles O2: the two bytes join to the word of the instruction, which decodes to it. -/
theorem decodeOfEncodedInstruction : Obligations.DecodeOfEncodedInstruction := by
  intro i rest _
  simp only [encode, List.cons_append, List.nil_append, decode, joinBytes_high_low, decodeWord_encodeWord]

/-- Settles O1: each word is the encoding of its instruction. -/
theorem writtenOutWordsDecode : Obligations.WrittenOutWordsDecode :=
  ⟨decodeWord_encodeWord .cls, decodeWord_encodeWord (.call 0x300), decodeWord_encodeWord (.seImm 6 0x43),
    decodeWord_encodeWord (.shl 1 2), decodeWord_encodeWord (.ldI 0x123), decodeWord_encodeWord (.drw 0 1 2),
    decodeWord_encodeWord (.sknp 1), decodeWord_encodeWord (.loadRegs 1)⟩

/-! ### The word of a decoded instruction -/

theorem encodeWord_of_decodeClass0 {w : Word} {i : Instr} (h : decodeClass0 w = .instr i) : encodeWord i = w := by
  unfold decodeClass0 at h
  split at h
  next hw => cases h; exact hw.symm
  next =>
    split at h
    next hw => cases h; exact hw.symm
    next => cases h

theorem encodeWord_of_decodeClass8 {w : Word} {i : Instr} (hc : opClass w = 0x8) (h : decodeClass8 w = .instr i) :
    encodeWord i = w := by
  unfold decodeClass8 at h
  split at h <;> cases h <;> exact formatXYN_of_fields w 0x8 _ hc ‹_›

theorem encodeWord_of_decodeClassE {w : Word} {i : Instr} (hc : opClass w = 0xE) (h : decodeClassE w = .instr i) :
    encodeWord i = w := by
  unfold decodeClassE at h
  split at h <;> cases h <;> exact formatXNN_of_fields w 0xE _ hc ‹_›

theorem encodeWord_of_decodeClassF {w : Word} {i : Instr} (hc : opClass w = 0xF) (h : decodeClassF w = .instr i) :
    encodeWord i = w := by
  unfold decodeClassF at h
  split at h <;> cases h <;> exact formatXNN_of_fields w 0xF _ hc ‹_›

theorem opClass_lt (w : Word) : opClass w < 16 := (w.extractLsb' 12 4).isLt

theorem opClass_eq_div (w : Word) : opClass w = w.toNat / 4096 := by
  have := w.isLt
  have := opClass_eq w
  omega

/-- Settles O3, class by class: the fields of a word and its class nibble are the whole word. -/
theorem encodeOfDecodedWord : Obligations.EncodeOfDecodedWord := by
  intro w i h
  unfold decodeWord at h
  split at h
  next => exact encodeWord_of_decodeClass0 h
  next hc => cases h; exact formatNNN_of_fields w 0x1 hc
  next hc => cases h; exact formatNNN_of_fields w 0x2 hc
  next hc => cases h; exact formatXNN_of_fields w 0x3 _ hc rfl
  next hc => cases h; exact formatXNN_of_fields w 0x4 _ hc rfl
  next hc =>
    split at h
    next hn => cases h; exact formatXYN_of_fields w 0x5 0x0 hc hn
    next => cases h
  next hc => cases h; exact formatXNN_of_fields w 0x6 _ hc rfl
  next hc => cases h; exact formatXNN_of_fields w 0x7 _ hc rfl
  next hc => exact encodeWord_of_decodeClass8 hc h
  next hc =>
    split at h
    next hn => cases h; exact formatXYN_of_fields w 0x9 0x0 hc hn
    next => cases h
  next hc => cases h; exact formatNNN_of_fields w 0xA hc
  next hc => cases h; exact formatNNN_of_fields w 0xB hc
  next hc => cases h; exact formatXNN_of_fields w 0xC _ hc rfl
  next hc => cases h; exact formatXYN_of_fields w 0xD _ hc rfl
  next hc => exact encodeWord_of_decodeClassE hc h
  next =>
    have hlt := opClass_lt w
    simp only [imp_false] at *
    exact encodeWord_of_decodeClassF (by omega) h

/-! ### The words that decode to no instruction -/

theorem decodeClass0_unassigned_iff (w : Word) :
    (∃ u, decodeClass0 w = .unassigned u) ↔ w ≠ 0x00E0 ∧ w ≠ 0x00EE := by
  unfold decodeClass0
  split
  next hw => simp [hw]
  next hw =>
    split
    next hw' => simp [hw']
    next hw' => simp [hw, hw']

theorem decodeClass8_unassigned_iff (w : Word) :
    (∃ u, decodeClass8 w = .unassigned u) ↔ (fieldN w).val ∈ [0x8, 0x9, 0xA, 0xB, 0xC, 0xD, 0xF] := by
  have hlt : (fieldN w).val < 16 := (fieldN w).isLt
  unfold decodeClass8
  split
  case h_10 =>
    simp only [imp_false] at *
    exact iff_of_true ⟨_, rfl⟩ (by simp only [List.mem_cons, List.not_mem_nil]; omega)
  all_goals next hn => simp [hn]

theorem decodeClassE_unassigned_iff (w : Word) :
    (∃ u, decodeClassE w = .unassigned u) ↔ (fieldNN w).toNat ∉ [0x9E, 0xA1] := by
  unfold decodeClassE
  split
  case h_3 => exact iff_of_true ⟨_, rfl⟩ (by simp_all)
  all_goals next hnn => simp [hnn]

theorem decodeClassF_unassigned_iff (w : Word) :
    (∃ u, decodeClassF w = .unassigned u) ↔
      (fieldNN w).toNat ∉ [0x07, 0x0A, 0x15, 0x18, 0x1E, 0x29, 0x33, 0x55, 0x65] := by
  unfold decodeClassF
  split
  case h_10 => exact iff_of_true ⟨_, rfl⟩ (by simp_all)
  all_goals next hnn => simp [hnn]

/-- The decoder rejects a word in six of its classes; the ten others hold no unassigned word. -/
theorem decodeWord_unassigned_iff (w : Word) : (∃ u, decodeWord w = .unassigned u) ↔
    (opClass w = 0x0 ∧ w ≠ 0x00E0 ∧ w ≠ 0x00EE) ∨
    (opClass w = 0x5 ∧ (fieldN w).val ≠ 0) ∨
    (opClass w = 0x8 ∧ (fieldN w).val ∈ [0x8, 0x9, 0xA, 0xB, 0xC, 0xD, 0xF]) ∨
    (opClass w = 0x9 ∧ (fieldN w).val ≠ 0) ∨
    (opClass w = 0xE ∧ (fieldNN w).toNat ∉ [0x9E, 0xA1]) ∨
    (opClass w = 0xF ∧ (fieldNN w).toNat ∉ [0x07, 0x0A, 0x15, 0x18, 0x1E, 0x29, 0x33, 0x55, 0x65]) := by
  unfold decodeWord
  split
  next hc => simp [hc, decodeClass0_unassigned_iff]
  case h_6 hc | h_10 hc => by_cases hn : (fieldN w).val = 0 <;> simp [hc, hn]
  case h_9 hc => simp [hc, decodeClass8_unassigned_iff]
  case h_15 hc => simp [hc, decodeClassE_unassigned_iff]
  case h_16 =>
    have hlt := opClass_lt w
    simp only [imp_false] at *
    have hc : opClass w = 0xF := by omega
    simp [hc, decodeClassF_unassigned_iff]
  all_goals next hc => simp [hc]

/-- Settles O5: the class and the function fields of a word are quotients and remainders of its number. -/
theorem unassignedWordsAreTheSixClasses : Obligations.UnassignedWordsAreTheSixClasses := by
  intro w
  rw [decodeWord_unassigned_iff, opClass_eq_div, fieldN_val, fieldNN_toNat]

/-! ### The decoder and the opcode table -/

theorem OpcodeRow.matchesWord_iff (r : OpcodeRow) (w : Word) : r.matchesWord w = true ↔ w &&& r.mask = r.pattern :=
  beq_iff_eq

theorem opcodeRow_matches_encodeWord (i : Instr) : (opcodeRow i).matchesWord (encodeWord i) = true := by
  cases i with
  | cls | ret => rfl
  | jp | call | ldI | jpV0 => exact Laws.matches_NNN ..
  | seImm | sneImm | ldImm | addImm | rnd => exact Laws.matches_XNN ..
  | seReg | sneReg | ldReg | orReg | andReg | xorReg | addReg | subReg | shr | subn | shl => exact Laws.matches_XY ..
  | drw => exact Laws.matches_XYN ..
  | skp | sknp | ldFromDT | ldKey | ldToDT | ldToST | addI | ldF | ldB | storeRegs | loadRegs =>
    exact Laws.matches_X ..

theorem opcodeRow_mem (i : Instr) : opcodeRow i ∈ opcodeRows := by
  cases i <;> exact of_decide_eq_true rfl

/-- Two rows whose fixed bits agree where both fix them are one row. -/
theorem opcodeRows_disjoint : ∀ r ∈ opcodeRows, ∀ q ∈ opcodeRows,
    r.pattern &&& q.mask = q.pattern &&& r.mask → r = q := by
  decide

theorem opcodeRow_unique {w : Word} {r q : OpcodeRow} (hr : r ∈ opcodeRows) (hq : q ∈ opcodeRows)
    (hrw : r.matchesWord w = true) (hqw : q.matchesWord w = true) : r = q := by
  rw [OpcodeRow.matchesWord_iff] at hrw hqw
  apply opcodeRows_disjoint r hr q hq
  rw [← hrw, ← hqw, BitVec.and_assoc, BitVec.and_assoc, BitVec.and_comm r.mask]

section
variable {r : OpcodeRow} {w : Word}

/-- A word has a row's bits in every field the row fixes. -/
theorem extractLsb'_eq_of_matches (h : r.matchesWord w = true) {start len : Nat}
    (hmask : r.mask.extractLsb' start len = BitVec.allOnes len) :
    w.extractLsb' start len = r.pattern.extractLsb' start len := by
  rw [← (r.matchesWord_iff w).mp h, BitVec.extractLsb'_and, hmask, BitVec.and_allOnes]

theorem opClass_eq_of_matches (hr : r ∈ opcodeRows) (h : r.matchesWord w = true) : opClass w = opClass r.pattern := by
  have hmask : ∀ r ∈ opcodeRows, r.mask.extractLsb' 12 4 = BitVec.allOnes 4 := by decide
  exact congrArg BitVec.toNat (extractLsb'_eq_of_matches h (hmask r hr))

theorem eq_pattern_of_matches (hr : r ∈ opcodeRows) (h : r.matchesWord w = true) (hc : opClass w = 0x0) :
    w = r.pattern := by
  have hmask : ∀ r ∈ opcodeRows, opClass r.pattern = 0x0 → r.mask = BitVec.allOnes 16 := by decide
  rw [← (r.matchesWord_iff w).mp h, hmask r hr (opClass_eq_of_matches hr h ▸ hc), BitVec.and_allOnes]

theorem fieldN_eq_of_matches (hr : r ∈ opcodeRows) (h : r.matchesWord w = true) (hc : opClass w ∈ [0x5, 0x8, 0x9]) :
    fieldN w = fieldN r.pattern := by
  have hmask : ∀ r ∈ opcodeRows, opClass r.pattern ∈ [0x5, 0x8, 0x9] →
      r.mask.extractLsb' 0 4 = BitVec.allOnes 4 := by decide
  exact congrArg BitVec.toFin (extractLsb'_eq_of_matches h (hmask r hr (opClass_eq_of_matches hr h ▸ hc)))

theorem fieldNN_eq_of_matches (hr : r ∈ opcodeRows) (h : r.matchesWord w = true) (hc : opClass w ∈ [0xE, 0xF]) :
    fieldNN w = fieldNN r.pattern := by
  have hmask : ∀ r ∈ opcodeRows, opClass r.pattern ∈ [0xE, 0xF] →
      r.mask.extractLsb' 0 8 = BitVec.allOnes 8 := by decide
  exact extractLsb'_eq_of_matches h (hmask r hr (opClass_eq_of_matches hr h ▸ hc))

theorem pattern_assigned : ∀ r ∈ opcodeRows, ¬∃ u, decodeWord r.pattern = .unassigned u := by
  simp only [decodeWord_unassigned_iff]
  decide

/-- A word that matches a row is unassigned only if the row's pattern is: in each of the six classes the row fixes the
bits that tell. -/
theorem exists_instr_of_matches (hr : r ∈ opcodeRows) (h : r.matchesWord w = true) :
    ∃ i, decodeWord w = .instr i := by
  cases hd : decodeWord w with
  | instr i => exact ⟨i, rfl⟩
  | unassigned u =>
    have hn := fieldN_eq_of_matches hr h
    have hnn := fieldNN_eq_of_matches hr h
    refine absurd ?_ (pattern_assigned r hr)
    rw [decodeWord_unassigned_iff, ← opClass_eq_of_matches hr h]
    obtain ⟨hc, hu⟩ | ⟨hc, hu⟩ | ⟨hc, hu⟩ | ⟨hc, hu⟩ | ⟨hc, hu⟩ | ⟨hc, hu⟩ :=
      (decodeWord_unassigned_iff w).mp ⟨u, hd⟩
    · exact .inl ⟨hc, eq_pattern_of_matches hr h hc ▸ hu⟩
    · exact .inr (.inl ⟨hc, hn (by simp [hc]) ▸ hu⟩)
    · exact .inr (.inr (.inl ⟨hc, hn (by simp [hc]) ▸ hu⟩))
    · exact .inr (.inr (.inr (.inl ⟨hc, hn (by simp [hc]) ▸ hu⟩)))
    · exact .inr (.inr (.inr (.inr (.inl ⟨hc, hnn (by simp [hc]) ▸ hu⟩))))
    · exact .inr (.inr (.inr (.inr (.inr ⟨hc, hnn (by simp [hc]) ▸ hu⟩))))

end

/-- Settles O4: a matching word decodes, to an instruction whose own row it matches, and no word matches two rows. -/
theorem decoderAgreesWithOpcodeTable : Obligations.DecoderAgreesWithOpcodeTable := by
  have hrow {w : Word} {i : Instr} (hd : decodeWord w = .instr i) : (opcodeRow i).matchesWord w = true :=
    encodeOfDecodedWord w i hd ▸ opcodeRow_matches_encodeWord i
  refine ⟨rfl, fun w r q => opcodeRow_unique, fun w r hr => ⟨fun h => ?_, ?_⟩⟩
  · obtain ⟨i, hd⟩ := exists_instr_of_matches hr h
    exact ⟨i, hd, opcodeRow_unique (opcodeRow_mem i) hr (hrow hd) h⟩
  · rintro ⟨i, hd, rfl⟩
    exact hrow hd

end Sys2Proof
end

section
/-! What one step does in each mode (40_execution_cycle.md R110 to R113), what no step does to the keypad and the timers
(R115, 45_keypad_timers.md R177), and the self-jump (R117). -/

namespace Sys2Proof

/-- Two bytes decode to an instruction exactly when their word does, and nothing is left over. -/
theorem decode_pair_eq_ok_iff (hi lo : Byte) (i : Instr) :
    decode [hi, lo] = .ok i [] ↔ decodeWord (joinBytes hi lo) = .instr i := by
  rw [decode]
  split <;> simp_all

theorem decode_pair_eq_unassigned_iff (hi lo : Byte) (u : Unassigned) :
    decode [hi, lo] = .unassigned u ↔ decodeWord (joinBytes hi lo) = .unassigned u := by
  rw [decode]
  split <;> simp_all

end Sys2Proof

namespace Sys2Proof.Machine

/-! ### One equation of a step for each case of `step_cases` -/

theorem step_of_fault {s : State} {r : FaultRecord} (hf : s.fault = some r) : step s = .next s := by
  simpa [hf] using step_cases s

theorem step_of_wait {s : State} {x : RegIdx} (hf : s.fault = none) (hw : s.wait = some x) : step s = .next s := by
  simpa [hf, hw] using step_cases s

section
variable {s : State} (hf : s.fault = none) (hw : s.wait = none)
include hf hw

theorem step_of_fetch_outOfRange {a : Word} (hfetch : s.fetch = .outOfRange a) :
    step s = .next (s.takeFault .addressOutOfRange s.pc 0 a) := by
  simpa [hf, hw, hfetch] using step_cases s

theorem step_of_nextInstr {i : Instr} (hi : NextInstr s i) : step s = exec i s.preAdvance := by
  obtain ⟨w, hfetch, hd⟩ := hi
  simpa [hf, hw, hfetch, hd] using step_cases s

theorem step_of_unassigned {w : Word} {u : Unassigned} (hfetch : s.fetch = .word w)
    (hd : decodeWord w = .unassigned u) : step s = .next s.preAdvance := by
  simpa [hf, hw, hfetch, hd] using step_cases s

end

/-- Settles O6: the range of `pc` decides the fetch, and the two bytes decode as the fetched word. -/
theorem runningStepFetchesAdvancesExecutes : Obligations.RunningStepFetchesAdvancesExecutes := by
  intro s hf hw
  refine ⟨fun hgt => ?_, fun hle => ⟨fun i _ hd => ?_, fun u hd => ?_⟩⟩
  · exact ⟨_, step_of_fetch_outOfRange hf hw (fetch_of_gt s hgt), rfl, onlyChanges_takeFault s _ _ _ _⟩
  · exact step_of_nextInstr hf hw ⟨_, fetch_of_le s hle, (decode_pair_eq_ok_iff ..).mp hd⟩
  · exact step_of_unassigned hf hw (fetch_of_le s hle) ((decode_pair_eq_unassigned_iff ..).mp hd)

/-! ### What a step reports when nothing runs -/

theorem applyOp_step_of_next {s t : State} (h : step s = .next t) :
    applyOp .step s = .next (t, t.report.result) := by
  change afterStep (step s) = _
  rw [h]
  rfl

theorem report_of_noFault {s : State} (hf : s.fault = none) : s.report = .ok := by
  unfold State.report
  rw [hf]

/-- Settles O7: the state is left as it was, so the report is that of the mode it was in. -/
theorem stepChangesNothingWhenFaultedOrWaiting : Obligations.StepChangesNothingWhenFaultedOrWaiting := by
  intro s
  refine ⟨fun r hf => ?_, fun x hf hw => ?_⟩
  · rw [applyOp_step_of_next (step_of_fault hf), report_of_mode_faulted ((mode_faulted_iff s _).mpr ⟨r, hf, rfl⟩)]
    rfl
  · rw [applyOp_step_of_next (step_of_wait hf hw), report_of_noFault hf]
    rfl

/-! ### The keypad and the timers -/

/-- The keypad outlives every instruction, and each timer every instruction but the one that writes a register to it. -/
theorem Effect.keypad_and_timers {s t : State} {i : Instr} (he : Effect s i t) : t.key = s.key ∧
    (t.DT = s.DT ∨ ∃ x, i = .ldToDT x ∧ t.DT = s.readReg x) ∧
    (t.ST = s.ST ∨ ∃ x, i = .ldToST x ∧ t.ST = s.readReg x) := by
  cases he with
  | delayTimer x => exact ⟨rfl, .inr ⟨x, rfl, rfl⟩, .inl rfl⟩
  | soundTimer x => exact ⟨rfl, .inl rfl, .inr ⟨x, rfl, rfl⟩⟩
  | skip c => exact ⟨State.skipIf_key s c, .inl (State.skipIf_DT s c), .inl (State.skipIf_ST s c)⟩
  | load => rw [writeRegsFrom_eq]; exact ⟨rfl, .inl rfl, .inl rfl⟩
  | _ => exact ⟨rfl, .inl rfl, .inl rfl⟩

/-- Settles O41: only a step that executes an instruction can move a timer, and its effect says which one does. -/
theorem stepsNeverTickTimersNorTouchKeys : Obligations.StepsNeverTickTimersNorTouchKeys := by
  intro s t h
  obtain ⟨r, -, hs⟩ | ⟨x, -, -, hs⟩ | ⟨a, -, -, -, hs⟩ | ⟨w, i, -, -, hfetch, hd, hs⟩ |
    ⟨w, u, -, -, -, -, hs⟩ := step_cases s
  -- the one case that executes an instruction
  case inr.inr.inr.inl =>
    obtain ⟨hkey, hDT, hST⟩ := (exec_effect (hs.symm.trans h)).keypad_and_timers
    refine ⟨hkey, hDT.imp_right ?_, hST.imp_right ?_⟩
    · rintro ⟨x, rfl, hx⟩; exact ⟨x, ⟨w, hfetch, hd⟩, hx⟩
    · rintro ⟨x, rfl, hx⟩; exact ⟨x, ⟨w, hfetch, hd⟩, hx⟩
  all_goals cases hs.symm.trans h; exact ⟨rfl, .inl rfl, .inl rfl⟩

/-! ### The self-jump -/

theorem exec_jp (nnn : Addr12) (s : State) : exec (.jp nnn) s = .next (s.setPc (zextAddr nnn)) := rfl

/-- Putting `pc` back undoes the pre-advance. -/
theorem setPc_preAdvance (s : State) : s.preAdvance.setPc s.pc = s := rfl

/-- Settles O49: the fetched word decodes to the jump, whose target is the `pc` before the pre-advance. -/
theorem selfJumpIsAFixedPoint : Obligations.SelfJumpIsAFixedPoint := by
  rintro h s ⟨hm, hpc, hfetch⟩
  obtain ⟨hf, hw⟩ := (mode_running_iff s).mp hm
  have hnext : NextInstr s (.jp h) := ⟨_, hfetch, decodeWord_encodeWord _⟩
  rw [step_of_nextInstr hf hw hnext, exec_jp, ← hpc, setPc_preAdvance]

end Sys2Proof.Machine
end

section
/-! Control transfer (41_flow.md R121 to R128): what each instruction of the family leaves, from the rules of `push`,
`pop`, `setPc` and `skipIf`. -/

namespace Sys2Proof.Machine

/-- The decoder reads every encoding back, so the number of the word is all there is to show. -/
theorem encodedAs_of_toNat {i : Instr} {word : Nat} (h : (encodeWord i).toNat = word) : EncodedAs i word := by
  refine ⟨h, ?_⟩
  rw [← h, BitVec.ofNat_toNat, BitVec.setWidth_eq, decodeWord_encodeWord]

theorem takesFault_raiseIn (i : Instr) (c : Fault) (addr : Word) (s : State) :
    TakesFault i c addr s (s.raiseIn c i addr) :=
  ⟨rfl, onlyChanges_takeFault s _ _ _ _⟩

/-! ### Jumps -/

theorem exec_jpV0 (nnn : Addr12) (s : State) :
    exec (.jpV0 nnn) s = .next (s.setPc (zextAddr nnn + zext16 (s.readReg 0))) := rfl

/-- Settles O16: both jumps are a `setPc`, and neither target reaches 65536. -/
theorem jumpsSetTheProgramCounter : Obligations.JumpsSetTheProgramCounter := by
  intro nnn s
  refine ⟨⟨encodedAs_of_toNat (toNat_formatNNN 0x1 nnn), _, exec_jp nnn s, ?_, onlyChanges_setPc s _⟩,
    ⟨encodedAs_of_toNat (toNat_formatNNN 0xB nnn), _, exec_jpV0 nnn s, ?_, onlyChanges_setPc s _⟩⟩
  · exact toNat_zextAddr nnn
  · exact toNat_zextAddr_add_zext16 nnn (s.readReg 0)

/-! ### Call and return -/

section
variable {s t : State} {w : Word}

theorem onlyChanges_push (h : s.push w = some t) : OnlyChanges [.stack, .depth] s t := by
  obtain ⟨hsp, rfl⟩ := push_eq_some h
  intro p hp
  cases p with
  | stack | depth => simp at hp
  | registers | memory => exact fun _ => rfl
  | _ => rfl

theorem onlyChanges_pop (h : s.pop = some (w, t)) : OnlyChanges [.depth] s t := by
  obtain ⟨d, hd, hsp, -, rfl⟩ := pop_eq_some h
  intro p hp
  cases p with
  | depth => simp at hp
  | registers | memory => exact fun _ => rfl
  | _ => rfl

theorem exec_call_of_push (nnn : Addr12) (h : s.push s.pc = some t) :
    exec (.call nnn) s = .next (t.setPc (zextAddr nnn)) := by
  change execCall nnn s = _
  rw [execCall, h]

theorem exec_call_of_full (nnn : Addr12) (h : s.sp = 16) :
    exec (.call nnn) s = .next (s.raiseIn .stackOverflow (.call nnn) 0) := by
  change execCall nnn s = _
  rw [execCall, (push_eq_none_iff s s.pc).mpr h]

theorem exec_ret_of_pop (h : s.pop = some (w, t)) : exec .ret s = .next (t.setPc w) := by
  change execRet s = _
  rw [execRet, h]

theorem exec_ret_of_empty (h : s.sp = 0) : exec .ret s = .next (s.raiseIn .stackUnderflow .ret 0) := by
  change execRet s = _
  rw [execRet, (pop_eq_none_iff s).mpr h]

end

/-- Settles O17: a call is a push and a jump where the push succeeds, and the overflow where it does not. -/
theorem callPushesOrOverflows : Obligations.CallPushesOrOverflows := by
  intro nnn s
  refine ⟨encodedAs_of_toNat (toNat_formatNNN 0x2 nnn), fun hsp => ?_, fun hfull => ?_⟩
  · have hpush := push_of_lt s s.pc hsp
    refine ⟨_, exec_call_of_push nnn hpush, toNat_zextAddr nnn, rfl, fun j => ?_, ?_⟩
    · rw [State.setPc_stack, Vector.getElem_set]
      exact if_congr eq_comm rfl rfl
    · exact ((onlyChanges_push hpush).mono (by simp)).trans ((onlyChanges_setPc _ _).mono (by simp))
  · exact ⟨_, exec_call_of_full nnn hfull, takesFault_raiseIn ..⟩

/-- Settles O18: a return is a pop and a jump to the entry where the pop succeeds, and the underflow where it does
not. -/
theorem returnPopsOrUnderflows : Obligations.ReturnPopsOrUnderflows := by
  refine ⟨rfl, decodeWord_encodeWord .ret, fun s => ⟨fun d hsp => ?_, fun hempty => ?_⟩⟩
  · have hpop := pop_of_pos s d.val d.isLt hsp
    refine ⟨_, exec_ret_of_pop hpop, rfl, rfl, ?_⟩
    exact ((onlyChanges_pop hpop).mono (by simp)).trans ((onlyChanges_setPc _ _).mono (by simp))
  · exact ⟨_, exec_ret_of_empty hempty, takesFault_raiseIn ..⟩

/-! ### Compare skips -/

section
variable {i : Instr} {s : State} {a b : Byte}

theorem skips_if_eq (h : exec i s = .next (s.skipIf (a == b))) :
    ∃ t, exec i s = .next t ∧ t.pc = (if a = b then s.pc + 2 else s.pc) ∧ OnlyChanges [.counter] s t := by
  refine ⟨_, h, ?_, onlyChanges_skipIf s _⟩
  rw [State.skipIf_pc]
  exact if_congr beq_iff_eq rfl rfl

theorem skips_if_ne (h : exec i s = .next (s.skipIf (a != b))) :
    ∃ t, exec i s = .next t ∧ t.pc = (if a = b then s.pc else s.pc + 2) ∧ OnlyChanges [.counter] s t := by
  refine ⟨_, h, ?_, onlyChanges_skipIf s _⟩
  rw [State.skipIf_pc, ← ite_not (a = b)]
  exact if_congr bne_iff_ne rfl rfl

end

/-- Settles O20: two of the four skip on equality and two on its complement. -/
theorem compareSkipsAddTwo : Obligations.CompareSkipsAddTwo := by
  intro x y nn s
  exact ⟨⟨encodedAs_of_toNat (toNat_formatXNN 0x3 x nn), skips_if_eq rfl⟩,
    ⟨encodedAs_of_toNat (toNat_formatXNN 0x4 x nn), skips_if_ne rfl⟩,
    ⟨encodedAs_of_toNat (toNat_formatXYN 0x5 x y 0x0), skips_if_eq rfl⟩,
    ⟨encodedAs_of_toNat (toNat_formatXYN 0x9 x y 0x0), skips_if_ne rfl⟩⟩

end Sys2Proof.Machine
end

section
/-! The register and ALU instructions (42_alu.md R132 to R139, R141): what an instruction that writes a result, or a
result and then the flag, leaves in each register, and the arithmetic of the sum and the difference. -/

namespace Sys2Proof.Machine

/-! ### Sum and difference as numbers -/

theorem toNat_sum9 (a b : Byte) : (sum9 a b).toNat = a.toNat + b.toNat := by
  simp only [sum9, BitVec.toNat_add, BitVec.toNat_setWidth]
  omega

theorem toNat_addResult (a b : Byte) : (addResult a b).toNat = (a.toNat + b.toNat) % 256 := by
  rw [addResult, BitVec.extractLsb'_toNat, toNat_sum9, Nat.shiftRight_zero]

/-- The carry is the top bit of the 9-bit sum. -/
theorem addCarry_eq (a b : Byte) : addCarry a b = decide (255 < a.toNat + b.toNat) := by
  rw [← toNat_sum9]
  exact BitVec.msb_eq_decide (sum9 a b)

theorem toNat_addCarry (a b : Byte) : (addCarry a b).toNat = if 255 < a.toNat + b.toNat then 1 else 0 := by
  rw [addCarry_eq, Bool.toNat, Bool.cond_decide]

theorem toNat_noBorrow (a b : Byte) : (noBorrow a b).toNat = if b.toNat ≤ a.toNat then 1 else 0 := by
  rw [noBorrow, Bool.toNat, Bool.cond_decide]

theorem toNat_subResult (a b : Byte) : (subResult a b).toNat = (a.toNat + 256 - b.toNat) % 256 := by
  rw [subResult, BitVec.toNat_sub]
  omega

theorem toNat_flagByte (f : Bool) : (flagByte f).toNat = f.toNat := by cases f <;> rfl

/-! ### Writing a result, and writing a result and then the flag -/

section
variable {i : Instr} {s : State} {x : RegIdx} {b : Byte} {f : Bool}

theorem writes_register (h : exec i s = .next (s.writeReg x b)) :
    ∃ t, exec i s = .next t ∧ (∀ r, t.readReg r = if r = x then b else s.readReg r) ∧
      OnlyChanges [.registers] s t :=
  ⟨_, h, fun r => s.readReg_writeReg x r b, onlyChanges_writeReg s x b⟩

theorem writes_result_then_flag {n k : Nat} (h : exec i s = .next (s.writeResultFlag x b f)) (hb : b.toNat = n)
    (hf : f.toNat = k) :
    ∃ t, exec i s = .next t ∧
      (∀ r, (t.readReg r).toNat = if r = 0xF then k else if r = x then n else (s.readReg r).toNat) ∧
      OnlyChanges [.registers] s t := by
  refine ⟨_, h, fun r => ?_, onlyChanges_writeResultFlag s x b f⟩
  rw [State.readReg_writeResultFlag, apply_ite BitVec.toNat, apply_ite BitVec.toNat, toNat_flagByte, hb, hf]
  rfl

end

/-! ### The instructions -/

/-- The words of class 8, by the last nibble (30_encoding.md R94). -/
theorem encodedAs_8xyN {i : Instr} (x y : RegIdx) (n : BitVec 4) (h : encodeWord i = formatXYN 0x8 x y n) :
    EncodedAs i (0x8000 + n.toNat + x.val * 256 + y.val * 16) := by
  apply encodedAs_of_toNat
  have hclass : (0x8 : BitVec 4).toNat = 8 := rfl
  rw [h, toNat_formatXYN, hclass]
  omega

theorem exec_addImm (x : RegIdx) (nn : Byte) (s : State) :
    exec (.addImm x nn) s = .next (s.writeReg x (addResult (s.readReg x) nn)) := rfl

/-- Settles O12: the 9-bit sum gives both the result and the flag. -/
theorem addWritesSumThenCarry : Obligations.AddWritesSumThenCarry := by
  intro x y s
  exact ⟨encodedAs_8xyN x y 0x4 rfl,
    writes_result_then_flag rfl (toNat_addResult _ _) (toNat_addCarry _ _)⟩

/-- Settles O13: one difference and one no-borrow, with the operands in either order. -/
theorem subtractionsWriteDifferenceThenNoBorrow : Obligations.SubtractionsWriteDifferenceThenNoBorrow := by
  intro x y s
  exact ⟨⟨encodedAs_8xyN x y 0x5 rfl,
      writes_result_then_flag rfl (toNat_subResult _ _) (toNat_noBorrow _ _)⟩,
    ⟨encodedAs_8xyN x y 0x7 rfl,
      writes_result_then_flag rfl (toNat_subResult _ _) (toNat_noBorrow _ _)⟩⟩

/-- Settles O10: both are one register write, the sum of 7xnn without its ninth bit. -/
theorem immediateLoadAndAdd : Obligations.ImmediateLoadAndAdd := by
  intro x nn s
  refine ⟨⟨encodedAs_of_toNat (toNat_formatXNN 0x6 x nn), writes_register rfl⟩,
    encodedAs_of_toNat (toNat_formatXNN 0x7 x nn), ?_⟩
  obtain ⟨t, hexec, hreg, hframe⟩ := writes_register (exec_addImm x nn s)
  refine ⟨t, hexec, fun r => ?_, hframe⟩
  rw [hreg, apply_ite BitVec.toNat, toNat_addResult]

/-- Settles O11: each of the four is one register write, and none writes a flag. -/
theorem copyAndLogicWriteOnlyVx : Obligations.CopyAndLogicWriteOnlyVx := by
  intro x y s
  exact ⟨⟨encodedAs_8xyN x y 0x0 rfl, writes_register rfl⟩,
    ⟨encodedAs_8xyN x y 0x1 rfl, writes_register rfl⟩,
    ⟨encodedAs_8xyN x y 0x2 rfl, writes_register rfl⟩,
    ⟨encodedAs_8xyN x y 0x3 rfl, writes_register rfl⟩⟩

end Sys2Proof.Machine
end

section
/-! The index register, the loads and the stores (43_index_memory.md R151 to R156): the number of a glyph's address, the
two outcomes of a checked range, and the bytes a checked store leaves. -/

namespace Sys2Proof.Machine

/-- The words of class F, by the low byte (30_encoding.md R94). -/
theorem encodedAs_FxNN {i : Instr} (x : RegIdx) (nn : Byte) (h : encodeWord i = formatXNN 0xF x nn) :
    EncodedAs i (0xF000 + nn.toNat + x.val * 256) := by
  apply encodedAs_of_toNat
  have hclass : (0xF : BitVec 4).toNat = 15 := rfl
  rw [h, toNat_formatXNN, hclass]
  omega

/-! ### The index register -/

theorem writes_index {i : Instr} {s : State} {w : Word} {n : Nat} (h : exec i s = .next (s.setI w))
    (hw : w.toNat = n) : ∃ t, exec i s = .next t ∧ t.I.toNat = n ∧ OnlyChanges [.index] s t :=
  ⟨_, h, hw, onlyChanges_setI s w⟩

theorem toNat_add_zext16 (w : Word) (b : Byte) : (w + zext16 b).toNat = (w.toNat + b.toNat) % 65536 := by
  rw [BitVec.toNat_add, toNat_zext16]

/-- Five times a byte stays below 65536, so the product does not wrap. -/
theorem toNat_glyphAddress (v : Byte) : (glyphAddress v).toNat = v.toNat * 5 := by
  have hbytes : (BitVec.ofNat 16 Config.glyphBytes).toNat = 5 := rfl
  rw [glyphAddress, BitVec.toNat_mul, toNat_zext16, hbytes]
  omega

/-- Settles O22: each of the two is one write of the index register. -/
theorem indexLoadAndAddWriteOnlyI : Obligations.IndexLoadAndAddWriteOnlyI := by
  intro x nnn s
  exact ⟨⟨encodedAs_of_toNat (toNat_formatNNN 0xA nnn), writes_index rfl (toNat_zextAddr nnn)⟩,
    ⟨encodedAs_FxNN x 0x1E rfl, writes_index rfl (toNat_add_zext16 _ _)⟩⟩

/-- Settles O23: the glyph of 15, the last of the 16, ends with the font area. -/
theorem fontAddressIsFiveTimesTheValue : Obligations.FontAddressIsFiveTimesTheValue := by
  intro x s
  obtain ⟨t, hexec, hI, hframe⟩ := writes_index (s := s) (i := .ldF x) rfl (toNat_glyphAddress (s.readReg x))
  refine ⟨encodedAs_FxNN x 0x29 rfl, t, hexec, hI, fun hdigit => ?_, hframe⟩
  rw [hI, Config.fontLength]
  omega

/-! ### The two outcomes of a checked range -/

theorem rangeChecked_of_gt {last : Nat} {i : Instr} {s : State} (done : State) (h : 0xFFF < s.dataAddress + last) :
    rangeChecked (last + 1) i s done =
      .next (s.raiseIn .addressOutOfRange i (BitVec.ofNat 16 (max s.I.toNat 0x1000))) := by
  have hbad : badAddress s.dataAddress (last + 1) = some (BitVec.ofNat 16 (max s.dataAddress 0x1000)) :=
    (badAddress_some_iff ..).mpr ⟨⟨by omega, by unfold Config.memSize; omega⟩, rfl⟩
  rw [rangeChecked, hbad]
  rfl

section
variable {i : Instr} {s done : State} {last : Nat}

theorem takesFault_of_range_gt (hexec : exec i s = rangeChecked (last + 1) i s done)
    (h : 0xFFF < s.dataAddress + last) : ∃ t, exec i s = .next t ∧
      TakesFault i .addressOutOfRange (BitVec.ofNat 16 (max s.I.toNat 0x1000)) s t :=
  ⟨_, hexec.trans (rangeChecked_of_gt done h), takesFault_raiseIn ..⟩

theorem completes_of_range_le (hexec : exec i s = rangeChecked (last + 1) i s done)
    (h : s.dataAddress + last ≤ 0xFFF) : exec i s = .next done := by
  rw [hexec, rangeChecked_of_le]
  unfold Config.memSize
  omega

/-- A store whose range lies in memory leaves its bytes there, and every byte outside the range as it was. -/
theorem stores_bytes {bytes : List Byte} (hlen : bytes.length = last + 1)
    (hexec : exec i s =
      rangeChecked (last + 1) i s (s.setMem (Memory.writeBytes s.mem s.dataAddress bytes)))
    (hmem : MemoryCanonical s) (h : s.dataAddress + last ≤ 0xFFF) :
    ∃ t, exec i s = .next t ∧
      (∀ k, k ≤ last → Memory.read t.mem (s.dataAddress + k) = bytes.getD k 0) ∧
      (∀ a, a < s.dataAddress ∨ s.dataAddress + last < a → Memory.read t.mem a = Memory.read s.mem a) ∧
      OnlyChanges [.memory] s t := by
  have hfits : s.dataAddress + bytes.length ≤ Config.memSize := by unfold Config.memSize; omega
  refine ⟨_, completes_of_range_le hexec h, fun k hk => ?_, fun a ha => ?_, onlyChanges_setMem s _⟩
  · rw [State.setMem_mem, Memory.read_writeBytes hmem _ _ hfits, if_pos (by omega), Nat.add_sub_cancel_left]
  · rw [State.setMem_mem, Memory.read_writeBytes_other _ _ _ (by omega)]

end

/-! ### The transfers -/

/-- No digit reaches 256, so none is cut to a byte. -/
theorem toNat_decimalDigits (v : Byte) :
    ((decimalDigits v).getD 0 0).toNat = v.toNat / 100 ∧
      ((decimalDigits v).getD 1 0).toNat = v.toNat / 10 % 10 ∧
      ((decimalDigits v).getD 2 0).toNat = v.toNat % 10 :=
  have hbyte : ∀ n, n < 256 → (BitVec.ofNat 8 n).toNat = n := fun n hn => Nat.mod_eq_of_lt hn
  ⟨hbyte _ (by omega), hbyte _ (by omega), hbyte _ (by omega)⟩

/-- Settles O24: a store of the three digits, or the fault. -/
theorem decimalStoreWritesThreeDigits : Obligations.DecimalStoreWritesThreeDigits := by
  intro x s
  refine ⟨encodedAs_FxNN x 0x33 rfl, fun hmem hrange => ?_, takesFault_of_range_gt (exec_ldB x s)⟩
  obtain ⟨t, hexec, hin, hout, hframe⟩ := stores_bytes rfl (exec_ldB x s) hmem hrange
  obtain ⟨hhundreds, htens, hones⟩ := toNat_decimalDigits (s.readReg x)
  refine ⟨t, hexec, ?_, ?_, ?_, hout, hframe⟩
  · rw [← Nat.add_zero s.dataAddress, hin 0 (by omega), hhundreds]
  · rw [hin 1 (by omega), htens]
  · rw [hin 2 (by omega), hones]

/-- Settles O25: a store of the registers up to Vx, or the fault. -/
theorem registerStoreWritesV0ToVx : Obligations.RegisterStoreWritesV0ToVx := by
  intro x s
  refine ⟨encodedAs_FxNN x 0x55 rfl, fun hmem hrange => ?_, takesFault_of_range_gt (exec_storeRegs x s)⟩
  obtain ⟨t, hexec, hin, hout, hframe⟩ := stores_bytes (length_regsUpTo s x) (exec_storeRegs x s) hmem hrange
  exact ⟨t, hexec, fun r hr => (hin r.val hr).trans (getD_regsUpTo s x r hr), hout, hframe⟩

/-- The registers up to Vx take the bytes from `a` on, the registers above keep theirs. -/
theorem readReg_writeRegsFrom_readBytes (x r : RegIdx) (a : Nat) (s : State) :
    (State.writeRegsFrom 0 (Memory.readBytes s.mem a (x.val + 1)) s).readReg r =
      if r.val ≤ x.val then Memory.read s.mem (a + r.val) else s.readReg r := by
  rw [readReg_writeRegsFrom _ _ _ (by rw [Memory.length_readBytes]; omega), Memory.length_readBytes]
  by_cases hr : r.val ≤ x.val
  · rw [if_pos (by omega), if_pos hr, Nat.sub_zero, Memory.getD_readBytes _ _ _ _ (by omega)]
  · rw [if_neg (by omega), if_neg hr]

/-- Settles O26: a load of the registers up to Vx, or the fault. -/
theorem registerLoadReadsV0ToVx : Obligations.RegisterLoadReadsV0ToVx := by
  intro x s
  refine ⟨encodedAs_FxNN x 0x65 rfl, fun hrange => ?_, takesFault_of_range_gt (exec_loadRegs x s)⟩
  exact ⟨_, completes_of_range_le (exec_loadRegs x s) hrange,
    fun r => readReg_writeRegsFrom_readBytes x r s.dataAddress s, onlyChanges_writeRegsFrom s 0 _⟩

end Sys2Proof.Machine
end

section
/-! The display (44_display.md R161 to R165): what 00E0 leaves, what one Dxyn leaves and what two at the same place
leave, and which operations write the framebuffer and `dirty`. -/

namespace Sys2Proof.Machine

/-! ### 00E0 -/

theorem exec_cls (s : State) : exec .cls s = .next (s.setScreen Framebuffer.clear) := rfl

theorem pixel_clear (py : Fin 32) (px : Fin 64) : Framebuffer.pixel Framebuffer.clear py px = false := by
  simp [Framebuffer.pixel, Framebuffer.clear]

/-- Settles O29: 00E0 is one write of the clear framebuffer, which sets `dirty` with it. -/
theorem clearScreenClearsAndSetsDirty : Obligations.ClearScreenClearsAndSetsDirty :=
  ⟨rfl, decodeWord_encodeWord .cls, fun s => ⟨_, exec_cls s, pixel_clear, rfl, onlyChanges_setScreen s _⟩⟩

/-! ### One Dxyn -/

theorem flagByte_eq_one_iff (f : Bool) : flagByte f = 1 ↔ f = true := by cases f <;> decide

theorem flagByte_eq_zero_iff (f : Bool) : flagByte f = 0 ↔ ¬f = true := by cases f <;> decide

/-- What Dxyn leaves when every sprite byte lies in memory. -/
def drawn (x y : RegIdx) (n : RowCount) (s : State) : State :=
  drawSprite x y (Memory.readBytes s.mem s.dataAddress n.val) s

theorem exec_drw_of_le {x y : RegIdx} {n : RowCount} {s : State}
    (h : n.val = 0 ∨ s.dataAddress + n.val - 1 ≤ 0xFFF) : exec (.drw x y n) s = .next (drawn x y n s) := by
  have hnone : badAddress s.dataAddress n.val = none :=
    (badAddress_none_iff ..).mpr (by unfold Config.memSize; omega)
  rw [exec_drw, rangeChecked, hnone]
  rfl

/-- The base column may be reduced before or after the column of the bit is added. -/
theorem val_spriteColumn_baseColumn (v : Byte) (bit : Fin 8) :
    (spriteColumn (baseColumn v) bit).val = (v.toNat + bit.val) % 64 := Nat.mod_add_mod ..

section
variable (x y : RegIdx) (n : RowCount) (s : State)

/-- The rows read from memory cover the pixels `SpriteCovers` names. -/
theorem rowsCover_readBytes_iff (py : Fin 32) (px : Fin 64) :
    RowsCover (baseRow (s.readReg y)) (baseColumn (s.readReg x)) (Memory.readBytes s.mem s.dataAddress n.val) py px ↔
      SpriteCovers s x y n py px := by
  have hcolumn (bit : Fin 8) : px = spriteColumn (baseColumn (s.readReg x)) bit ↔
      px.val = ((s.readReg x).toNat + bit.val) % 64 := by
    rw [Fin.ext_iff, val_spriteColumn_baseColumn]
  unfold RowsCover SpriteCovers
  rw [Memory.length_readBytes]
  constructor
  · rintro ⟨row, hrow, hpy, bit, hbit, hpx⟩
    rw [Memory.getD_readBytes _ _ _ _ hrow] at hbit
    exact ⟨row, bit, hrow, hpy, (hcolumn bit).mp hpx, hbit⟩
  · rintro ⟨row, bit, hrow, hpy, hpx, hbit⟩
    refine ⟨row, hrow, hpy, bit, ?_, (hcolumn bit).mpr hpx⟩
    rw [Memory.getD_readBytes _ _ _ _ hrow]
    exact hbit

theorem pixel_drawn (py : Fin 32) (px : Fin 64) :
    (SpriteCovers s x y n py px →
      Framebuffer.pixel (drawn x y n s).fb py px = !Framebuffer.pixel s.fb py px) ∧
    (¬SpriteCovers s x y n py px →
      Framebuffer.pixel (drawn x y n s).fb py px = Framebuffer.pixel s.fb py px) := by
  rw [← rowsCover_readBytes_iff]
  exact pixel_drawRows ..

theorem dirty_drawn : (drawn x y n s).dirty = true := rfl

theorem onlyChanges_drawn : OnlyChanges [.registers, .screen, .dirty] s (drawn x y n s) :=
  onlyChanges_drawSprite x y _ s

theorem readReg_drawn_other {r : RegIdx} (hr : r ≠ 0xF) : (drawn x y n s).readReg r = s.readReg r :=
  State.readReg_writeReg_other _ _ _ _ hr

/-- VF is a flag, set exactly when the sprite meets a pixel that was set. -/
theorem readReg_drawn_flag : ∃ f, (drawn x y n s).readReg 0xF = flagByte f ∧
    (f = true ↔ ∃ py px, SpriteCovers s x y n py px ∧ Framebuffer.pixel s.fb py px = true) := by
  refine ⟨_, State.readReg_writeReg_same _ regF _, ?_⟩
  rw [collision_drawRows]
  simp only [rowsCover_readBytes_iff, Bool.false_eq_true, false_or]

theorem readReg_drawn_eq_one_iff : (drawn x y n s).readReg 0xF = 1 ↔
    ∃ py px, SpriteCovers s x y n py px ∧ Framebuffer.pixel s.fb py px = true := by
  obtain ⟨f, hf, hcollides⟩ := readReg_drawn_flag x y n s
  rw [hf, flagByte_eq_one_iff, hcollides]

theorem readReg_drawn_eq_zero_iff : (drawn x y n s).readReg 0xF = 0 ↔
    ¬∃ py px, SpriteCovers s x y n py px ∧ Framebuffer.pixel s.fb py px = true := by
  obtain ⟨f, hf, hcollides⟩ := readReg_drawn_flag x y n s
  rw [hf, flagByte_eq_zero_iff, hcollides]

end

/-- Settles O30: the range of the sprite bytes decides between `drawn` and the fault. -/
theorem drawTogglesTheSprite : Obligations.DrawTogglesTheSprite := by
  intro x y n s
  refine ⟨encodedAs_of_toNat (toNat_formatXYN 0xD x y (nibble n)), fun hrange => ?_, fun hn hgt => ?_⟩
  · exact ⟨_, exec_drw_of_le hrange, pixel_drawn x y n s, (readReg_drawn_eq_one_iff x y n s).mpr,
      (readReg_drawn_eq_zero_iff x y n s).mpr, fun _ hr => readReg_drawn_other x y n s hr, dirty_drawn x y n s,
      onlyChanges_drawn x y n s⟩
  · obtain ⟨last, hlast⟩ := Nat.exists_eq_succ_of_ne_zero hn
    have hexec := exec_drw x y n s
    rw [hlast] at hexec
    exact takesFault_of_range_gt hexec (by omega)

/-! ### Two Dxyn at the same place -/

/-- The pixels of a sprite depend on the position, on `I` and on the sprite bytes alone. -/
theorem spriteCovers_congr {s u : State} {x y : RegIdx} {n : RowCount} (hI : u.I = s.I)
    (hx : u.readReg x = s.readReg x) (hy : u.readReg y = s.readReg y)
    (hbytes : ∀ row, row < n.val → Memory.read u.mem (s.I.toNat + row) = Memory.read s.mem (s.I.toNat + row))
    (py : Fin 32) (px : Fin 64) : SpriteCovers u x y n py px ↔ SpriteCovers s x y n py px := by
  unfold SpriteCovers
  rw [hI, hx, hy]
  refine exists_congr fun row => exists_congr fun bit => and_congr_right fun hrow => ?_
  rw [hbytes row hrow]

/-- Settles O31: the second draw covers the same pixels, each of which the first has inverted. -/
theorem drawingTwiceRestoresTheScreen : Obligations.DrawingTwiceRestoresTheScreen := by
  intro x y n s t u hrange ht hfb hI hx hy hbytes
  cases (exec_drw_of_le hrange).symm.trans ht
  have hcovers := spriteCovers_congr hI hx hy hbytes
  have hdata : u.dataAddress = s.dataAddress := congrArg BitVec.toNat hI
  have hinverted {py : Fin 32} {px : Fin 64} (hc : SpriteCovers s x y n py px) :
      Framebuffer.pixel u.fb py px = !Framebuffer.pixel s.fb py px := by
    rw [hfb, (pixel_drawn x y n s py px).1 hc]
  refine ⟨_, exec_drw_of_le (hdata ▸ hrange), framebuffer_ext fun py px => ?_, dirty_drawn x y n s,
    dirty_drawn x y n u, readReg_drawn_eq_one_iff x y n s, ?_⟩
  · by_cases hc : SpriteCovers s x y n py px
    · rw [(pixel_drawn x y n u py px).1 ((hcovers py px).mpr hc), hinverted hc, Bool.not_not]
    · rw [(pixel_drawn x y n u py px).2 (mt (hcovers py px).mp hc), hfb, (pixel_drawn x y n s py px).2 hc]
  · rw [readReg_drawn_eq_one_iff]
    refine exists_congr fun py => exists_congr fun px => ?_
    rw [hcovers]
    refine and_congr_right fun hc => ?_
    rw [hinverted hc, Bool.not_eq_true']

/-! ### The dirty flag -/

/-- Neither the framebuffer nor `dirty` has changed. -/
def SameScreen (s t : State) : Prop := t.fb = s.fb ∧ t.dirty = s.dirty

theorem SameScreen.refl (s : State) : SameScreen s s := ⟨rfl, rfl⟩

theorem SameScreen.trans {s t u : State} (hst : SameScreen s t) (htu : SameScreen t u) : SameScreen s u :=
  ⟨htu.1.trans hst.1, htu.2.trans hst.2⟩

/-- Only 00E0 and Dxyn write the screen, and both set `dirty`. -/
theorem Effect.screen {s t : State} {i : Instr} (he : Effect s i t) :
    SameScreen s t ∨ (t.dirty = true ∧ (i = .cls ∨ ∃ x y n, i = .drw x y n)) := by
  cases he with
  | clear => exact .inr ⟨rfl, .inl rfl⟩
  | draw x y n bytes => exact .inr ⟨rfl, .inr ⟨x, y, n, rfl⟩⟩
  | skip c => exact .inl ⟨State.skipIf_fb s c, State.skipIf_dirty s c⟩
  | load => rw [writeRegsFrom_eq]; exact .inl ⟨rfl, rfl⟩
  | _ => exact .inl ⟨rfl, rfl⟩

theorem step_screen {s t : State} (h : step s = .next t) :
    SameScreen s t ∨ (t.dirty = true ∧ (NextInstr s .cls ∨ ∃ x y n, NextInstr s (.drw x y n))) := by
  obtain ⟨r, -, hs⟩ | ⟨x, -, -, hs⟩ | ⟨a, -, -, -, hs⟩ | ⟨w, i, -, -, hfetch, hd, hs⟩ |
    ⟨w, u, -, -, -, -, hs⟩ := step_cases s
  -- the one case that executes an instruction
  case inr.inr.inr.inl =>
    obtain hsame | ⟨hdirty, rfl | ⟨x, y, n, rfl⟩⟩ := (exec_effect (hs.symm.trans h)).screen
    · exact .inl hsame
    · exact .inr ⟨hdirty, .inl ⟨w, hfetch, hd⟩⟩
    · exact .inr ⟨hdirty, .inr ⟨x, y, n, w, hfetch, hd⟩⟩
  all_goals cases hs.symm.trans h; exact .inl ⟨rfl, rfl⟩

theorem sameScreen_press (k : KeyCode) (s : State) : SameScreen s (press k s) := by
  unfold press
  split <;> exact ⟨rfl, rfl⟩

theorem sameScreen_setOneKey (w : BitVec 16) (s : State) (k : KeyCode) : SameScreen s (setOneKey w s k) := by
  unfold setOneKey
  split
  next => exact sameScreen_press k s
  next => split <;> exact ⟨rfl, rfl⟩

theorem sameScreen_setKeys (w : BitVec 16) (s : State) : SameScreen s (setKeys w s) :=
  List.foldlRecOn (motive := SameScreen s) keyCodes _ (.refl s) fun t ht k _ =>
    ht.trans (sameScreen_setOneKey w t k)

/-- What an operation can do to the framebuffer and `dirty`: nothing, a step that draws or clears the screen,
`clear_dirty`, or reset. -/
theorem applyOp_screen {o : HostOp} {s t : State} {r : OpResult} (h : applyOp o s = .next (t, r)) :
    SameScreen s t ∨
    (o = .step ∧ t.dirty = true ∧ (NextInstr s .cls ∨ ∃ x y n, NextInstr s (.drw x y n))) ∨
    (o = .clearDirty ∧ t.dirty = false ∧ t.fb = s.fb) ∨ (o = .reset ∧ t.dirty = false) := by
  cases o with
  | reset => cases h; exact .inr (.inr (.inr ⟨rfl, rfl⟩))
  | load bytes => obtain rfl | rfl := applyOp_load_cases h <;> exact .inl ⟨rfl, rfl⟩
  | step => exact (step_screen (applyOp_step_eq h).1).imp_right fun hdraw => .inl ⟨rfl, hdraw⟩
  | press k => cases h; exact .inl (sameScreen_press k s)
  | setKeys w => cases h; exact .inl (sameScreen_setKeys w s)
  | clearDirty => cases h; exact .inr (.inr (.inl ⟨rfl, rfl, rfl⟩))
  | advanceTimers | release => cases h; exact .inl ⟨rfl, rfl⟩

/-- Settles O42: each of the four things an operation can do to the screen allows the transitions of `dirty` it may
make, and no other. -/
theorem dirtyFlagProtocol : Obligations.DirtyFlagProtocol := by
  intro o s t r h
  obtain ⟨hfb, hdirty⟩ | ⟨rfl, hdirty, hnext⟩ | ⟨rfl, hdirty, hfb⟩ | ⟨rfl, hdirty⟩ := applyOp_screen h
  · exact ⟨by simp +contextual [hdirty], by simp +contextual [hdirty], fun hne => absurd hfb hne⟩
  · exact ⟨fun _ _ => ⟨rfl, hnext⟩, by simp [hdirty], fun _ => .inl hdirty⟩
  · exact ⟨by simp [hdirty], fun _ _ => .inl rfl, fun hne => absurd hfb hne⟩
  · exact ⟨by simp [hdirty], fun _ _ => .inr rfl, fun _ => .inr rfl⟩

end Sys2Proof.Machine
end

section
/-! The keypad and the timers (45_keypad_timers.md R170 to R176): when a value is the code of a pressed key, the moves
between registers and timers, and the wait of Fx0A, which only a key event or reset ends. -/

namespace Sys2Proof.Machine

/-! ### Skips on the keypad -/

/-- The words of class E, by the low byte (30_encoding.md R94). -/
theorem encodedAs_ExNN {i : Instr} (x : RegIdx) (nn : Byte) (h : encodeWord i = formatXNN 0xE x nn) :
    EncodedAs i (0xE000 + nn.toNat + x.val * 256) := by
  apply encodedAs_of_toNat
  have hclass : (0xE : BitVec 4).toNat = 14 := rfl
  rw [h, toNat_formatXNN, hclass]
  omega

theorem exec_skp (x : RegIdx) (s : State) : exec (.skp x) s = .next (s.skipIf (s.keyDown (s.readReg x))) := rfl

theorem exec_sknp (x : RegIdx) (s : State) : exec (.sknp x) s = .next (s.skipIf (!s.keyDown (s.readReg x))) := rfl

/-- The key codes are the values up to 15, so a larger value is no pressed key (45_keypad_timers.md R176). -/
theorem keyDown_iff (s : State) (v : Byte) :
    s.keyDown v = true ↔ ∃ k : KeyCode, v.toNat = k.val ∧ s.key.getLsbD k.val = true := by
  unfold State.keyDown
  split
  next hcode => exact ⟨fun h => ⟨⟨v.toNat, by omega⟩, rfl, h⟩, fun ⟨k, hk, h⟩ => hk ▸ h⟩
  next hcode => exact ⟨nofun, fun ⟨k, hk, _⟩ => absurd k.isLt (by omega)⟩

/-- Settles O21: the two skips are on `keyDown` and on its negation, and `keyDown_iff` says what it is. -/
theorem keySkipsFollowTheKeypad : Obligations.KeySkipsFollowTheKeypad := by
  intro x s
  refine ⟨encodedAs_ExNN x 0x9E rfl, encodedAs_ExNN x 0xA1 rfl, _, _, exec_skp x s, exec_sknp x s,
    onlyChanges_skipIf s _, onlyChanges_skipIf s _, ?_⟩
  rw [← keyDown_iff, State.skipIf_pc, State.skipIf_pc]
  cases s.keyDown (s.readReg x) with
  | true => exact ⟨fun _ => ⟨rfl, rfl⟩, fun h => absurd rfl h⟩
  | false => exact ⟨nofun, fun _ => ⟨rfl, rfl⟩⟩

/-! ### Moves between registers and timers -/

theorem exec_ldFromDT (x : RegIdx) (s : State) : exec (.ldFromDT x) s = .next (s.writeReg x s.DT) := rfl

theorem exec_ldToDT (x : RegIdx) (s : State) : exec (.ldToDT x) s = .next (s.setDT (s.readReg x)) := rfl

theorem exec_ldToST (x : RegIdx) (s : State) : exec (.ldToST x) s = .next (s.setST (s.readReg x)) := rfl

/-- The sound predicate `ST > 0` (46_host_interface.md R190). -/
theorem soundActive_iff (s : State) : soundActive s = true ↔ s.ST ≠ 0 := by
  rw [soundActive, decide_eq_true_iff, Nat.pos_iff_ne_zero, ne_eq, ne_eq, ← BitVec.toNat_inj]
  rfl

/-- Settles O32: each of the three is one write, of the register or of the timer. -/
theorem timerMoves : Obligations.TimerMoves := by
  intro x s
  exact ⟨⟨encodedAs_FxNN x 0x07 rfl, writes_register (exec_ldFromDT x s)⟩,
    ⟨encodedAs_FxNN x 0x15 rfl, _, exec_ldToDT x s, rfl, onlyChanges_setDT s _⟩,
    ⟨encodedAs_FxNN x 0x18 rfl, _, exec_ldToST x s, rfl, soundActive_iff _, onlyChanges_setST s _⟩⟩

/-! ### The bits of the keypad -/

theorem getLsbD_keyBit (k j : KeyCode) : (keyBit k).getLsbD j.val = decide (j = k) := by
  change (BitVec.twoPow 16 k.val).getLsbD j.val = _
  rw [BitVec.getLsbD_twoPow, decide_eq_true k.isLt, Bool.true_and, decide_eq_decide, Fin.ext_iff, eq_comm]

section
variable (s : State) (k j : KeyCode)

theorem getLsbD_key_keyOn : (s.keyOn k).key.getLsbD j.val = (s.key.getLsbD j.val || decide (j = k)) := by
  rw [State.keyOn, State.setKey_key, BitVec.getLsbD_or, getLsbD_keyBit]

theorem getLsbD_key_keyOff : (s.keyOff k).key.getLsbD j.val = (s.key.getLsbD j.val && !decide (j = k)) := by
  rw [State.keyOff, State.setKey_key, BitVec.getLsbD_and, BitVec.getLsbD_not, getLsbD_keyBit,
    decide_eq_true j.isLt, Bool.true_and]

end

theorem OnlyChanges.refl (ps : List Part) (s : State) : OnlyChanges ps s s := by
  intro p _
  cases p with
  | registers | memory => exact fun _ => rfl
  | _ => rfl

theorem onlyChanges_setKey (s : State) (key : BitVec 16) : OnlyChanges [.keypad] s (s.setKey key) := by
  intro p hp; cases p <;> simp_all [Agree]

theorem onlyChanges_release (k : KeyCode) (s : State) : OnlyChanges [.keypad] s (release k s) :=
  onlyChanges_setKey s _

/-! ### A snapshot with no newly pressed key -/

/-- Every key that is down in the snapshot is down in the state already (46_host_interface.md R187). -/
def NoNewKey (w : BitVec 16) (s : State) : Prop :=
  ∀ k : KeyCode, w.getLsbD k.val = true → s.key.getLsbD k.val = true

theorem exists_newKey_of_not_noNewKey {w : BitVec 16} {s : State} (h : ¬NoNewKey w s) :
    ∃ k : KeyCode, w.getLsbD k.val = true ∧ s.key.getLsbD k.val = false := by
  rw [NoNewKey, not_forall] at h
  exact h.imp fun k hk => by rwa [Classical.not_imp, Bool.not_eq_true] at hk

section
variable {w : BitVec 16} {s : State} (h : NoNewKey w s)
include h

/-- A key that is up in the snapshot is none of its keys. -/
theorem NoNewKey.release {k : KeyCode} (hk : w.getLsbD k.val = false) : NoNewKey w (release k s) := by
  intro j hj
  have hne : j ≠ k := by rintro rfl; exact Bool.false_ne_true (hk.symm.trans hj)
  rw [Machine.release, getLsbD_key_keyOff, h j hj, decide_eq_false hne]
  rfl

/-- Of the three branches of `setOneKey` the press is excluded. -/
theorem NoNewKey.setOneKey (k : KeyCode) :
    NoNewKey w (setOneKey w s k) ∧ OnlyChanges [.keypad] s (setOneKey w s k) := by
  unfold Machine.setOneKey
  split
  next hnew =>
    rw [Bool.and_eq_true, Bool.not_eq_true'] at hnew
    exact absurd (h k hnew.1) (Bool.eq_false_iff.mp hnew.2)
  next =>
    split
    next hup =>
      rw [Bool.and_eq_true, Bool.not_eq_true'] at hup
      exact ⟨h.release hup.1, onlyChanges_release k s⟩
    next => exact ⟨h, .refl _ s⟩

theorem NoNewKey.onlyChanges_setKeys : OnlyChanges [.keypad] s (setKeys w s) := by
  have hkeys : NoNewKey w (setKeys w s) ∧ OnlyChanges [.keypad] s (setKeys w s) :=
    List.foldlRecOn (motive := fun u => NoNewKey w u ∧ OnlyChanges [.keypad] s u) keyCodes _ ⟨h, .refl _ s⟩
      fun _ ⟨hu, hsu⟩ k _ => (hu.setOneKey k).imp_right hsu.trans
  exact hkeys.2

end

/-! ### The wait for a key -/

theorem exec_ldKey (x : RegIdx) (s : State) : exec (.ldKey x) s = .next (s.setWait (some x)) := rfl

section
variable {s : State} {x : RegIdx} (hf : s.fault = none) (hw : s.wait = some x)
include hf hw

theorem press_of_wait (k : KeyCode) :
    press k s = ((s.keyOn k).writeReg x (BitVec.ofNat 8 k.val)).setWait none := by
  rw [press, (mode_waiting_iff s x).mpr ⟨hf, hw⟩]

/-- The key pressed need not be one that was up (45_keypad_timers.md R172). -/
theorem press_ends_wait (k : KeyCode) : (press k s).wait = none ∧ ((press k s).readReg x).toNat = k.val ∧
    (press k s).pc = s.pc ∧ (press k s).key.getLsbD k.val = true := by
  rw [press_of_wait hf hw]
  refine ⟨rfl, ?_, rfl, ?_⟩
  · rw [State.readReg_setWait, State.readReg_writeReg_same, BitVec.toNat_ofNat, Nat.mod_eq_of_lt (by omega)]
  · rw [State.setWait_key, State.writeReg_key, getLsbD_key_keyOn, decide_eq_true rfl, Bool.or_true]

/-- Of all operations only a press, a snapshot with a newly pressed key and reset can end a wait or move `pc`
(60_exceptions.md R213). -/
theorem applyOp_of_wait {o : HostOp} {u : State} {r : OpResult} (h : applyOp o s = .next (u, r)) :
    (u.wait = some x ∧ u.pc = s.pc) ∨ o = .reset ∨ (∃ k, o = .press k) ∨
      ∃ w, o = .setKeys w ∧ ∃ k : KeyCode, w.getLsbD k.val = true ∧ s.key.getLsbD k.val = false := by
  cases o with
  | reset => exact .inr (.inl rfl)
  | press k => exact .inr (.inr (.inl ⟨k, rfl⟩))
  | setKeys w =>
    by_cases hnew : NoNewKey w s
    · cases h
      have hframe := hnew.onlyChanges_setKeys
      exact .inl ⟨(hframe .wait (by decide)).trans hw, hframe .counter (by decide)⟩
    · exact .inr (.inr (.inr ⟨w, rfl, exists_newKey_of_not_noNewKey hnew⟩))
  | load bytes => obtain rfl | rfl := applyOp_load_cases h <;> exact .inl ⟨hw, rfl⟩
  | step => cases (step_of_wait hf hw).symm.trans (applyOp_step_eq h).1; exact .inl ⟨hw, rfl⟩
  | advanceTimers | release | clearDirty => cases h; exact .inl ⟨hw, rfl⟩

end

/-- Settles O33: Fx0A writes `wait` alone, and the rules for a waiting state say what ends the wait. -/
theorem waitForKeyUntilPress : Obligations.WaitForKeyUntilPress := by
  intro x s
  refine ⟨encodedAs_FxNN x 0x0A rfl, _, exec_ldKey x s, rfl, onlyChanges_setWait s _, fun hf => ?_⟩
  have hfault : (s.setWait (some x)).fault = none := hf
  exact ⟨step_of_wait hfault rfl, fun _ => rfl, press_ends_wait hfault rfl, fun _ _ _ => applyOp_of_wait hfault rfl⟩

end Sys2Proof.Machine
end

section
/-! The host interface (46_host_interface.md R181 to R188): every operation answers a next state from every state, and
what the timer, load, key and `clear_dirty` operations change and leave unchanged. -/

namespace Sys2Proof.Machine

/-! ### Every operation is total -/

theorem rangeChecked_total (len : Nat) (i : Instr) (s done : State) : ∃ t, rangeChecked len i s done = .next t := by
  unfold rangeChecked
  split <;> exact ⟨_, rfl⟩

theorem exec_call_total (nnn : Addr12) (s : State) : ∃ t, exec (.call nnn) s = .next t := by
  cases hpush : s.push s.pc with
  | none => exact ⟨_, exec_call_of_full nnn ((push_eq_none_iff ..).mp hpush)⟩
  | some t => exact ⟨_, exec_call_of_push nnn hpush⟩

theorem exec_ret_total (s : State) : ∃ t, exec .ret s = .next t := by
  cases hpop : s.pop with
  | none => exact ⟨_, exec_ret_of_empty ((pop_eq_none_iff s).mp hpop)⟩
  | some p => exact ⟨_, exec_ret_of_pop hpop⟩

/-- No instruction stops the machine: a fault is a next state as well (log 4). -/
theorem exec_total (i : Instr) (s : State) : ∃ t, exec i s = .next t := by
  cases i with
  | call nnn => exact exec_call_total nnn s
  | ret => exact exec_ret_total s
  | drw | ldB | storeRegs | loadRegs => exact rangeChecked_total ..
  | _ => exact ⟨_, rfl⟩

theorem step_total (s : State) : ∃ t, step s = .next t := by
  obtain ⟨_, -, hs⟩ | ⟨_, -, -, hs⟩ | ⟨_, -, -, -, hs⟩ | ⟨_, i, -, -, -, -, hs⟩ |
    ⟨_, _, -, -, -, -, hs⟩ := step_cases s
  -- the one case that executes an instruction
  case inr.inr.inr.inl => rw [hs]; exact exec_total i _
  all_goals exact ⟨_, hs⟩

theorem applyOp_total (o : HostOp) (s : State) : ∃ t r, applyOp o s = .next (t, r) := by
  cases o with
  | load bytes =>
    rw [applyOp]
    cases load bytes s <;> exact ⟨_, _, rfl⟩
  | step =>
    obtain ⟨t, ht⟩ := step_total s
    exact ⟨t, _, applyOp_step_of_next ht⟩
  | _ => exact ⟨_, _, rfl⟩

theorem runOps_cons_of_next {o : HostOp} {s t : State} {r : OpResult} (h : applyOp o s = .next (t, r))
    (os : List HostOp) : runOps (o :: os) s = runOps os t := by
  rw [runOps, h]

theorem runOps_total (ops : List HostOp) (s : State) : ∃ t, runOps ops s = .next t := by
  induction ops generalizing s with
  | nil => exact ⟨s, rfl⟩
  | cons o os ih =>
    obtain ⟨t, r, ho⟩ := applyOp_total o s
    rw [runOps_cons_of_next ho]
    exact ih t

/-- Settles O8: the five cases of a step, each with a next state, and induction on the schedule. -/
theorem everyScheduleRuns : Obligations.EveryScheduleRuns := ⟨step_total, runOps_total⟩

/-! ### Ticks of the timers -/

theorem toNat_tickTimer (b : Byte) : (tickTimer b).toNat = b.toNat - 1 := by
  unfold tickTimer
  split
  next h => rw [h]; rfl
  next h =>
    have hpos : b.toNat ≠ 0 := fun h0 => h (BitVec.eq_of_toNat_eq h0)
    exact BitVec.toNat_sub_of_le (by bv_omega)

theorem onlyChanges_advanceTimers (s : State) : OnlyChanges [.delayTimer, .soundTimer] s (advanceTimers s) :=
  ((onlyChanges_setDT s _).mono (by simp)).trans ((onlyChanges_setST _ _).mono (by simp))

/-- Settles O37, by induction on the number of ticks: the first lowers each timer by 1, the others act on what it
leaves. -/
theorem ticksCountDownToZero : Obligations.TicksCountDownToZero := by
  intro k
  induction k with
  | zero => exact fun s => ⟨s, rfl, rfl, rfl, .refl _ s⟩
  | succ k ih =>
    intro s
    obtain ⟨t, hrun, hDT, hST, hframe⟩ := ih (advanceTimers s)
    have hDT' : (advanceTimers s).DT.toNat = s.DT.toNat - 1 := toNat_tickTimer s.DT
    have hST' : (advanceTimers s).ST.toNat = s.ST.toNat - 1 := toNat_tickTimer s.ST
    exact ⟨t, hrun, by omega, by omega, (onlyChanges_advanceTimers s).trans hframe⟩

/-! ### Loading a program -/

theorem romFits_iff (bytes : List Byte) : romFits bytes = true ↔ 0x200 + bytes.length ≤ 4096 := by
  unfold romFits Config.romMax Config.memSize Config.progBase
  rw [decide_eq_true_iff]
  omega

theorem applyOp_load_of_fits {bytes : List Byte} (h : romFits bytes = true) (s : State) :
    applyOp (.load bytes) s = .next (s.setMem (Memory.writeBytes s.mem Config.progBase bytes), .ok) := by
  rw [applyOp, load, if_pos h]

theorem applyOp_load_of_not_fits {bytes : List Byte} (h : ¬romFits bytes = true) (s : State) :
    applyOp (.load bytes) s = .next (s, .romTooLarge) := by
  rw [applyOp, load, if_neg h]

/-- Settles O38: the length decides whether the program fits, and the laws of memory say what a write of its bytes
leaves. -/
theorem loadCopiesTheProgramOrNothing : Obligations.LoadCopiesTheProgramOrNothing := by
  refine fun bytes s => ⟨fun hmem hlen => ?_, fun hlen => ?_⟩
  · have hbase : Config.progBase = 0x200 := rfl
    refine ⟨_, applyOp_load_of_fits ((romFits_iff bytes).mpr hlen) s, fun k hk => ?_, fun a ha => ?_,
      onlyChanges_setMem s _⟩
    · rw [State.setMem_mem, hbase, Memory.read_writeBytes hmem _ _ hlen, if_pos (by omega), Nat.add_sub_cancel_left]
    · exact Memory.read_writeBytes_other _ _ _ ha
  · exact applyOp_load_of_not_fits (fun hfits => absurd ((romFits_iff bytes).mp hfits) (by omega)) s

/-! ### Release and clear_dirty -/

theorem onlyChanges_clearDirty (s : State) : OnlyChanges [.dirty] s (clearDirty s) := by
  unfold clearDirty
  intro p hp; cases p <;> simp_all [Agree]

/-- Settles O35: each of the two is one write. -/
theorem releaseAndClearDirtyDoOneThing : Obligations.ReleaseAndClearDirtyDoOneThing :=
  fun k s => ⟨getLsbD_key_keyOff s k, onlyChanges_release k s, rfl, onlyChanges_clearDirty s⟩

/-! ### One press -/

/-- A press does the same to the keypad in every mode. -/
theorem key_press (k : KeyCode) (s : State) : (press k s).key = (s.keyOn k).key := by
  unfold press
  split <;> rfl

theorem press_of_not_waiting {s : State} (hm : ∀ r, s.mode ≠ .waitingForKey r) (k : KeyCode) :
    press k s = s.keyOn k := by
  unfold press
  split
  next r hr => exact absurd hr (hm r)
  next => rfl
  next => rfl

theorem onlyChanges_keyOn (k : KeyCode) (s : State) : OnlyChanges [.keypad] s (s.keyOn k) := onlyChanges_setKey s _

theorem onlyChanges_press_of_not_waiting {s : State} (hm : ∀ r, s.mode ≠ .waitingForKey r) (k : KeyCode) :
    OnlyChanges [.keypad] s (press k s) :=
  press_of_not_waiting hm k ▸ onlyChanges_keyOn k s

theorem onlyChanges_press (k : KeyCode) (s : State) : OnlyChanges [.keypad, .registers, .wait] s (press k s) := by
  have hkey : OnlyChanges [.keypad, .registers, .wait] s (s.keyOn k) := (onlyChanges_keyOn k s).mono (by simp)
  unfold press
  split
  next r _ =>
    exact (hkey.trans ((onlyChanges_writeReg _ r _).mono (by simp))).trans ((onlyChanges_setWait _ _).mono (by simp))
  next => exact hkey
  next => exact hkey

/-- `t` follows from `s` by the end of a wait for register `r` with key `k`: the code is in Vr, the other registers are
as they were, and nothing waits any more (46_host_interface.md R185). -/
def Delivered (r : RegIdx) (k : KeyCode) (s t : State) : Prop :=
  t.wait = none ∧ ∀ q, t.readReg q = if q = r then BitVec.ofNat 8 k.val else s.readReg q

theorem delivered_press {r : RegIdx} {s : State} (hm : s.mode = .waitingForKey r) (k : KeyCode) :
    Delivered r k s (press k s) := by
  obtain ⟨hf, hw⟩ := (mode_waiting_iff s r).mp hm
  rw [press_of_wait hf hw]
  refine ⟨rfl, fun q => ?_⟩
  rw [State.readReg_setWait, State.readReg_writeReg]
  rfl

/-- Settles O34: the keypad by `key_press`, the rest by the mode. -/
theorem pressSetsKeyAndEndsWait : Obligations.PressSetsKeyAndEndsWait := by
  refine fun k s => ⟨fun j => ?_, fun r hm => ?_, fun hm => onlyChanges_press_of_not_waiting hm k⟩
  · rw [key_press, getLsbD_key_keyOn]
  · obtain ⟨hwait, hreg⟩ := delivered_press hm k
    exact ⟨hwait, hreg, onlyChanges_press k s⟩

/-! ### A change of the keypad alone -/

section
variable {s t u : State} {r : RegIdx} {k : KeyCode}

theorem OnlyChanges.mode_eq (h : OnlyChanges [.keypad] s t) : t.mode = s.mode :=
  mode_eq_of_same (h .fault (by decide)) (h .wait (by decide))

theorem Delivered.of_onlyChanges_before (hst : OnlyChanges [.keypad] s t) (htu : Delivered r k t u) :
    Delivered r k s u :=
  ⟨htu.1, fun q => by rw [htu.2 q, hst .registers (by decide) q]⟩

theorem Delivered.of_onlyChanges_after (hst : Delivered r k s t) (htu : OnlyChanges [.keypad] t u) :
    Delivered r k s u :=
  ⟨(htu .wait (by decide)).trans hst.1, fun q => (htu .registers (by decide) q).trans (hst.2 q)⟩

theorem Delivered.not_waiting (h : Delivered r k s t) (x : RegIdx) : t.mode ≠ .waitingForKey x := by
  intro hm
  have hw := ((mode_waiting_iff t x).mp hm).2
  rw [h.1] at hw
  cases hw

end

/-! ### One key of a snapshot -/

section
variable (w : BitVec 16) (s : State)

/-- The three things one key of a snapshot can be: newly down, newly up, or as it was (46_host_interface.md R187). -/
theorem setOneKey_cases (k : KeyCode) :
    (w.getLsbD k.val = true ∧ s.key.getLsbD k.val = false ∧ setOneKey w s k = press k s) ∨
    (w.getLsbD k.val = false ∧ s.key.getLsbD k.val = true ∧ setOneKey w s k = release k s) ∨
    (w.getLsbD k.val = s.key.getLsbD k.val ∧ setOneKey w s k = s) := by
  unfold setOneKey
  cases w.getLsbD k.val <;> cases s.key.getLsbD k.val <;> simp

theorem getLsbD_key_setOneKey (k j : KeyCode) :
    (setOneKey w s k).key.getLsbD j.val = if j = k then w.getLsbD j.val else s.key.getLsbD j.val := by
  obtain ⟨hw, -, he⟩ | ⟨hw, -, he⟩ | ⟨hw, he⟩ := setOneKey_cases w s k
  · rw [he, key_press, getLsbD_key_keyOn]
    split
    next hj => rw [hj, hw, decide_eq_true rfl, Bool.or_true]
    next hj => rw [decide_eq_false hj, Bool.or_false]
  · rw [he, release, getLsbD_key_keyOff]
    split
    next hj => rw [hj, hw, decide_eq_true rfl, Bool.not_true, Bool.and_false]
    next hj => rw [decide_eq_false hj, Bool.not_false, Bool.and_true]
  · rw [he]
    split
    next hj => rw [hj, hw]
    next => rfl

theorem onlyChanges_setOneKey (k : KeyCode) : OnlyChanges [.keypad, .registers, .wait] s (setOneKey w s k) := by
  obtain ⟨-, -, he⟩ | ⟨-, -, he⟩ | ⟨-, he⟩ := setOneKey_cases w s k
  · exact he ▸ onlyChanges_press k s
  · exact he ▸ (onlyChanges_release k s).mono (by simp)
  · rw [he]; exact .refl _ s

variable {w s}

theorem onlyChanges_setOneKey_of_not_waiting (hm : ∀ r, s.mode ≠ .waitingForKey r) (k : KeyCode) :
    OnlyChanges [.keypad] s (setOneKey w s k) := by
  obtain ⟨-, -, he⟩ | ⟨-, -, he⟩ | ⟨-, he⟩ := setOneKey_cases w s k
  · exact he ▸ onlyChanges_press_of_not_waiting hm k
  · exact he ▸ onlyChanges_release k s
  · rw [he]; exact .refl _ s

theorem onlyChanges_setOneKey_of_not_new {k : KeyCode} (h : w.getLsbD k.val = true → s.key.getLsbD k.val = true) :
    OnlyChanges [.keypad] s (setOneKey w s k) := by
  obtain ⟨hw, hup, -⟩ | ⟨-, -, he⟩ | ⟨-, he⟩ := setOneKey_cases w s k
  · exact absurd (hup.symm.trans (h hw)) Bool.false_ne_true
  · exact he ▸ onlyChanges_release k s
  · rw [he]; exact .refl _ s

end

/-! ### A run of keys of a snapshot -/

section
variable (w : BitVec 16) (ks : List KeyCode)

theorem getLsbD_key_foldl_setOneKey (s : State) (j : KeyCode) :
    (ks.foldl (setOneKey w) s).key.getLsbD j.val = if j ∈ ks then w.getLsbD j.val else s.key.getLsbD j.val := by
  induction ks generalizing s with
  | nil => simp
  | cons k ks ih =>
    rw [List.foldl_cons, ih, getLsbD_key_setOneKey]
    by_cases hjk : j = k <;> simp [hjk]

theorem onlyChanges_foldl_setOneKey (s : State) :
    OnlyChanges [.keypad, .registers, .wait] s (ks.foldl (setOneKey w) s) :=
  List.foldlRecOn (motive := OnlyChanges _ s) ks _ (.refl _ s) fun u hu k _ => hu.trans (onlyChanges_setOneKey w u k)

theorem onlyChanges_foldl_setOneKey_of_not_waiting {s : State} (hm : ∀ r, s.mode ≠ .waitingForKey r) :
    OnlyChanges [.keypad] s (ks.foldl (setOneKey w) s) :=
  List.foldlRecOn (motive := OnlyChanges _ s) ks _ (.refl _ s) fun _ hu k _ =>
    hu.trans (onlyChanges_setOneKey_of_not_waiting (fun r => hu.mode_eq ▸ hm r) k)

variable {w ks}

/-- In a rising run of keys the lowest newly pressed one is delivered: the keys before it change the keypad alone, and
the keys after it find the core no longer waiting. -/
theorem delivered_foldl_setOneKey {s : State} {r : RegIdx} {k : KeyCode} (hm : s.mode = .waitingForKey r)
    (hrising : ks.Pairwise (· < ·)) (hmem : k ∈ ks) (hdown : w.getLsbD k.val = true)
    (hup : s.key.getLsbD k.val = false)
    (hlowest : ∀ j : KeyCode, j < k → w.getLsbD j.val = true → s.key.getLsbD j.val = true) :
    Delivered r k s (ks.foldl (setOneKey w) s) := by
  induction ks generalizing s with
  | nil => cases hmem
  | cons i ks ih =>
    obtain ⟨hlt, hrising⟩ := List.pairwise_cons.mp hrising
    rw [List.foldl_cons]
    obtain rfl | hmem := List.mem_cons.mp hmem
    · have hpress : setOneKey w s k = press k s := by rw [setOneKey, hdown, hup]; rfl
      have hnow := delivered_press hm k
      rw [hpress]
      exact hnow.of_onlyChanges_after (onlyChanges_foldl_setOneKey_of_not_waiting w ks hnow.not_waiting)
    · have hik : i < k := hlt k hmem
      have hbefore : OnlyChanges [.keypad] s (setOneKey w s i) := onlyChanges_setOneKey_of_not_new (hlowest i hik)
      refine (ih (hbefore.mode_eq.trans hm) hrising hmem ?_ fun j hj hwj => ?_).of_onlyChanges_before hbefore
      · rw [getLsbD_key_setOneKey, if_neg hik.ne', hup]
      · rw [getLsbD_key_setOneKey, hwj, hlowest j hj hwj, ite_self]

end

/-! ### The whole snapshot -/

theorem mem_keyCodes (k : KeyCode) : k ∈ keyCodes := by decide +revert

theorem keyCodes_rising : keyCodes.Pairwise (· < ·) := by decide

theorem key_setKeys (w : BitVec 16) (s : State) : (setKeys w s).key = w := by
  apply BitVec.eq_of_getLsbD_eq
  intro j hj
  exact (getLsbD_key_foldl_setOneKey w keyCodes s ⟨j, hj⟩).trans (if_pos (mem_keyCodes _))

/-- Settles O36: a snapshot is the run of all keys, rising, and `NoNewKey` covers the one with no newly pressed key. -/
theorem snapshotDeliversTheLowestNewKey : Obligations.SnapshotDeliversTheLowestNewKey := by
  refine fun w s => ⟨key_setKeys w s, onlyChanges_foldl_setOneKey w keyCodes s,
    onlyChanges_foldl_setOneKey_of_not_waiting w keyCodes, fun r hm => ⟨fun k hdown hup hlowest => ?_, ?_⟩⟩
  · exact delivered_foldl_setOneKey hm keyCodes_rising (mem_keyCodes k) hdown hup hlowest
  · exact NoNewKey.onlyChanges_setKeys

end Sys2Proof.Machine
end

section
/-! Faults (60_exceptions.md R200 to R211): what a fault leaves as it was, which instructions raise one and when, and
that the first one stands until reset. -/

namespace Sys2Proof.Machine

/-! ### Faults are precise -/

/-- An instruction that leaves a fault where there was none has done nothing but raise it (60_exceptions.md R209). -/
theorem Effect.eq_raiseIn {s t : State} {i : Instr} {r : FaultRecord} (he : Effect s i t) (hf : s.fault = none)
    (hr : t.fault = some r) : ∃ c a, t = s.raiseIn c i a := by
  cases he with
  | fault => exact ⟨_, _, rfl⟩
  | skip c => cases hf.symm.trans ((State.skipIf_fault s c).symm.trans hr)
  | load => rw [writeRegsFrom_eq] at hr; cases hf.symm.trans hr
  | _ => cases hf.symm.trans hr

/-- A fetch fails only where one of the two bytes at `pc` is above 0xFFF (40_execution_cycle.md R112). -/
theorem pc_gt_of_fetch_outOfRange {s : State} {a : Word} (h : s.fetch = .outOfRange a) : 0xFFF < s.pc.toNat + 1 := by
  by_contra hle
  rw [fetch_of_le s (by omega)] at h
  cases h

/-- A fault raised after the pre-advance records the address before it, and the two change `pc` and the fault register
alone (60_exceptions.md R210). -/
theorem raiseIn_preAdvance_precise (s : State) (c : Fault) (i : Instr) (a : Word) :
    (s.preAdvance.raiseIn c i a).fault = some ⟨c, s.pc, encodeWord i, a⟩ ∧
      OnlyChanges [.counter, .fault] s (s.preAdvance.raiseIn c i a) := by
  refine ⟨?_, ((onlyChanges_setPc s (s.pc + 2)).mono (by simp)).trans
    ((onlyChanges_takeFault s.preAdvance _ _ _ _).mono (by simp))⟩
  rw [State.raiseIn_eq, State.takeFault_fault, State.preAdvance_pc, BitVec.add_sub_cancel]

/-- Settles O44: of the five things a step can do only two leave a fault, the failed fetch and an instruction that
raises one; the word of that instruction is the one it was decoded from. -/
theorem faultsArePrecise : Obligations.FaultsArePrecise := by
  intro s t r hnone hst hr
  obtain ⟨q, hq, -⟩ | ⟨x, -, -, hs⟩ | ⟨a, -, -, hfetch, hs⟩ | ⟨w, i, -, -, hfetch, hd, hs⟩ |
    ⟨w, u, -, -, -, -, hs⟩ := step_cases s
  · cases hnone.symm.trans hq
  · cases hs.symm.trans hst; cases hnone.symm.trans hr
  · cases hs.symm.trans hst; cases hr
    exact ⟨rfl, (onlyChanges_takeFault s _ _ _ _).mono (by simp),
      .inr ⟨pc_gt_of_fetch_outOfRange hfetch, rfl, rfl, rfl⟩⟩
  · obtain ⟨c, a, rfl⟩ := (exec_effect (hs.symm.trans hst)).eq_raiseIn hnone hr
    obtain ⟨hrecord, hframe⟩ := raiseIn_preAdvance_precise s c i a
    cases hrecord.symm.trans hr
    exact ⟨rfl, hframe, .inl ⟨pc_le_of_fetch hfetch, rfl, (encodeOfDecodedWord w i hd).symm ▸ hfetch⟩⟩
  · cases hs.symm.trans hst; cases hnone.symm.trans hr

/-! ### Which instructions raise a fault -/

/-- The range check raises the range fault and no other, with the lowest invalid address, and only for a range that goes
above 0xFFF (60_exceptions.md R203). -/
theorem rangeChecked_fault {len : Nat} {i : Instr} {s done t : State} {r : FaultRecord}
    (hexec : exec i s = rangeChecked len i s done) (h : exec i s = .next t) (hdone : done.fault = none)
    (hr : t.fault = some r) : r.cause = .addressOutOfRange ∧ r.addr.toNat = max s.I.toNat 0x1000 ∧
      len ≠ 0 ∧ 0xFFF < s.I.toNat + len - 1 := by
  obtain ⟨a, ha, rfl⟩ | ⟨-, rfl⟩ := rangeChecked_cases (hexec.symm.trans h)
  · obtain ⟨⟨hpos, hgt⟩, rfl⟩ := (badAddress_some_iff ..).mp ha
    cases hr
    unfold Config.memSize State.dataAddress at hgt
    have hI := s.I.isLt
    refine ⟨rfl, ?_, by omega, by omega⟩
    rw [BitVec.toNat_ofNat, Nat.mod_eq_of_lt (by unfold State.dataAddress; omega)]
    rfl
  · cases hdone.symm.trans hr

/-- Settles O45: the six instructions by the cases of a call, a return and the range check; the frame of each of the
others holds the fault register. -/
theorem onlySixInstructionsRaiseFaults : Obligations.OnlySixInstructionsRaiseFaults := by
  intro i s t r hnone h hr
  cases i with
  | call nnn =>
    obtain ⟨hsp, rfl⟩ | ⟨_, rfl⟩ := exec_call_cases h
    · cases hr; exact .inl ⟨rfl, hsp, rfl, nnn, rfl⟩
    · cases hnone.symm.trans hr
  | ret =>
    obtain ⟨hsp, rfl⟩ | ⟨_, _, _, rfl⟩ := exec_ret_cases h
    · cases hr; exact .inr (.inl ⟨rfl, hsp, rfl, rfl⟩)
    · cases hnone.symm.trans hr
  | drw x y n =>
    obtain ⟨hcause, haddr, hn, hgt⟩ := rangeChecked_fault (exec_drw x y n s) h hnone hr
    exact .inr (.inr ⟨hcause, haddr, .inl ⟨x, y, n, rfl, hn, hgt⟩⟩)
  | ldB x =>
    obtain ⟨hcause, haddr, -, hgt⟩ := rangeChecked_fault (exec_ldB x s) h hnone hr
    exact .inr (.inr ⟨hcause, haddr, .inr (.inl ⟨x, rfl, hgt⟩)⟩)
  | storeRegs x =>
    obtain ⟨hcause, haddr, -, hgt⟩ := rangeChecked_fault (exec_storeRegs x s) h hnone hr
    exact .inr (.inr ⟨hcause, haddr, .inr (.inr ⟨x, .inl rfl, hgt⟩)⟩)
  | loadRegs x =>
    have hdone := (onlyChanges_writeRegsFrom s 0 (Memory.readBytes s.mem s.dataAddress (x.val + 1))) .fault (by simp)
    obtain ⟨hcause, haddr, -, hgt⟩ := rangeChecked_fault (exec_loadRegs x s) h (hdone.trans hnone) hr
    exact .inr (.inr ⟨hcause, haddr, .inr (.inr ⟨x, .inr rfl, hgt⟩)⟩)
  | _ =>
    have hsame : t.fault = s.fault := (exec_effect h).onlyChanges .fault (by simp [writtenParts])
    cases hnone.symm.trans (hsame.symm.trans hr)

/-! ### The first fault stands -/

/-- The parts the host can still change in mode Faulted, short of a reset (60_exceptions.md R211). -/
def hostParts : List Part := [.delayTimer, .soundTimer, .dirty, .keypad, .memory]

section
variable {s : State} {r : FaultRecord} (hf : s.fault = some r)
include hf

theorem not_waiting_of_fault (x : RegIdx) : s.mode ≠ .waitingForKey x := by
  intro hm
  cases hf.symm.trans ((mode_waiting_iff s x).mp hm).1

theorem onlyChanges_applyOp_of_fault {o : HostOp} {t : State} {q : OpResult} (ho : o ≠ .reset)
    (h : applyOp o s = .next (t, q)) : OnlyChanges hostParts s t := by
  cases o with
  | reset => exact absurd rfl ho
  | load bytes =>
    obtain rfl | rfl := applyOp_load_cases h
    · exact (onlyChanges_setMem s _).mono (by simp [hostParts])
    · exact .refl _ _
  | step => cases (step_of_fault hf).symm.trans (applyOp_step_eq h).1; exact .refl _ _
  | advanceTimers => cases h; exact (onlyChanges_advanceTimers s).mono (by simp [hostParts])
  | press k =>
    cases h
    exact (onlyChanges_press_of_not_waiting (not_waiting_of_fault hf) k).mono (by simp [hostParts])
  | release k => cases h; exact (onlyChanges_release k s).mono (by simp [hostParts])
  | setKeys w =>
    cases h
    exact (onlyChanges_foldl_setOneKey_of_not_waiting w keyCodes (not_waiting_of_fault hf)).mono (by simp [hostParts])
  | clearDirty => cases h; exact (onlyChanges_clearDirty s).mono (by simp [hostParts])

end

theorem OnlyChanges.fault_of_hostParts {s t : State} (h : OnlyChanges hostParts s t) : t.fault = s.fault :=
  h .fault (by simp [hostParts])

theorem onlyChanges_runOps_of_fault {ops : List HostOp} {s t : State} {r : FaultRecord} (hf : s.fault = some r)
    (hops : HostOp.reset ∉ ops) (h : runOps ops s = .next t) : OnlyChanges hostParts s t := by
  induction ops generalizing s with
  | nil => cases h; exact .refl _ _
  | cons o os ih =>
    obtain ⟨ho, hos⟩ := List.ne_and_not_mem_of_not_mem_cons hops
    obtain ⟨u, q, hu, hrest⟩ := runOps_cons h
    have hsu := onlyChanges_applyOp_of_fault hf ho.symm hu
    exact hsu.trans (ih (hsu.fault_of_hostParts.trans hf) hos hrest)

/-- Settles O46: the frame of a schedule in mode Faulted, by induction on it, holds the fault register. -/
theorem firstFaultStandsUntilReset : Obligations.FirstFaultStandsUntilReset := by
  intro ops s t r hf hops h
  have hframe := onlyChanges_runOps_of_fault hf hops h
  exact ⟨hframe.fault_of_hostParts.trans hf, hframe⟩

/-! ### Safe beginnings -/

theorem runOps_append_of_next {before : List HostOp} {s u : State} (h : runOps before s = .next u)
    (after : List HostOp) : runOps (before ++ after) s = runOps after u := by
  induction before generalizing s with
  | nil => cases h; rfl
  | cons o os ih =>
    obtain ⟨v, q, hv, hrest⟩ := runOps_cons h
    rw [List.cons_append, runOps_cons_of_next hv, ih hrest]

/-- Settles O47: a fault between the two parts would stand through the second (`firstFaultStandsUntilReset`). -/
theorem safeRunsHaveSafeBeginnings : Obligations.SafeRunsHaveSafeBeginnings := by
  rintro before after s hafter ⟨t, ht, hsafe⟩
  obtain ⟨u, hu⟩ := runOps_total before s
  rw [runOps_append_of_next hu] at ht
  refine ⟨u, hu, ?_⟩
  cases hfault : u.fault with
  | none => rfl
  | some r =>
    obtain ⟨hstands, -⟩ := firstFaultStandsUntilReset after u t r hfault hafter ht
    cases hsafe.symm.trans hstands

end Sys2Proof.Machine
end

section
/-! The reset state (70_reset_and_hazards.md R230, R231): what each part of it holds, and the invariant. -/

namespace Sys2Proof.Machine

/-! ### The parts of the reset state -/

theorem readReg_reset (r : RegIdx) : State.reset.readReg r = 0 := Vector.getElem_replicate ..

theorem stack_reset (j : Fin 16) : State.reset.stack[j.val] = 0 := Vector.getElem_replicate ..

/-- After reset no byte is listed, so the memory is FONT in its area and 0 above (10_state.md R38). -/
theorem read_reset (a : Nat) :
    Memory.read State.reset.mem a = if a < 80 then Config.font.getD a 0 else 0 := rfl

/-- Reset and the reset state agree on every part but the model's own count of draws. -/
theorem onlyChanges_resetFrom (s : State) : OnlyChanges [.draws] State.reset s.resetFrom := by
  intro p hp
  cases p with
  | draws => simp at hp
  | registers | memory => exact fun _ => rfl
  | _ => rfl

/-- Settles O39: every part is that of `State.reset`, read off its definition. -/
theorem resetLeavesTheStatedValues : Obligations.ResetLeavesTheStatedValues := by
  intro s
  refine ⟨s.resetFrom, rfl, readReg_reset, rfl, rfl, stack_reset, rfl, rfl, rfl, pixel_clear, rfl, rfl, rfl, rfl, rfl,
    fun a ha => ?_, fun a ha _ => ?_, rfl, fun p hp => onlyChanges_resetFrom s p (by simpa using hp)⟩
  · exact (read_reset a).trans (if_pos ha)
  · exact (read_reset a).trans (if_neg (by omega))

/-- Settles O50: a reset of the reset state is that state, and every reset leaves the invariant. -/
theorem invariantHoldsAtReset : Obligations.InvariantHoldsAtReset := invariant_resetFrom State.reset

end Sys2Proof.Machine
end

section
/-! The report of a step (40_execution_cycle.md R116). -/

namespace Sys2Proof.Machine

theorem report_of_fault {s : State} {r : FaultRecord} (hf : s.fault = some r) : s.report = .err r.cause :=
  report_of_mode_faulted ((mode_faulted_iff s _).mpr ⟨r, hf, rfl⟩)

/-- Settles O9: a step has a next state, and its fault register decides the report. -/
theorem stepReportsOkOrTheCause : Obligations.StepReportsOkOrTheCause := by
  intro s
  obtain ⟨t, ht⟩ := step_total s
  refine ⟨t, _, applyOp_step_of_next ht, ?_⟩
  cases hf : t.fault with
  | none => exact .inl ⟨rfl, congrArg StepReport.result (report_of_noFault hf)⟩
  | some f => exact .inr ⟨f, rfl, congrArg StepReport.result (report_of_fault hf)⟩

end Sys2Proof.Machine
end

section
/-! The shifts (42_alu.md R140, R142) and the random draw (R143, R144). -/

namespace Sys2Proof.Machine

/-! ### Shifted values and the bits shifted out, as numbers -/

theorem toNat_shrResult (a : Byte) : (shrResult a).toNat = a.toNat / 2 := by
  rw [shrResult, BitVec.toNat_ushiftRight, Nat.shiftRight_one]

theorem toNat_shrFlag (a : Byte) : (shrFlag a).toNat = a.toNat % 2 := by
  rw [shrFlag, BitVec.getLsbD, Nat.toNat_testBit, Nat.pow_zero, Nat.div_one]

theorem toNat_shlResult (a : Byte) : (shlResult a).toNat = a.toNat * 2 % 256 := by
  rw [shlResult, BitVec.toNat_shiftLeft, Nat.shiftLeft_eq]

/-- Bit 7 is the top bit, so nothing is left of it to reduce. -/
theorem toNat_shlFlag (a : Byte) : (shlFlag a).toNat = a.toNat / 128 := by
  rw [shlFlag, BitVec.getLsbD, Nat.toNat_testBit]
  omega

/-! ### The shifts -/

/-- With SHIFT_USES_VY = false a shift works on Vx, whatever y is (log 3). -/
theorem shiftOperand_eq (s : State) (x y : RegIdx) : s.shiftOperand x y = s.readReg x := rfl

theorem exec_shr (x y : RegIdx) (s : State) : exec (.shr x y) s =
    .next (s.writeResultFlag x (shrResult (s.shiftOperand x y)) (shrFlag (s.shiftOperand x y))) := rfl

theorem exec_shl (x y : RegIdx) (s : State) : exec (.shl x y) s =
    .next (s.writeResultFlag x (shlResult (s.shiftOperand x y)) (shlFlag (s.shiftOperand x y))) := rfl

/-- Settles O14: each shift is a result and then a flag, both of the value of Vx. -/
theorem shiftsWriteShiftedValueThenBitShiftedOut : Obligations.ShiftsWriteShiftedValueThenBitShiftedOut := by
  intro x y s
  have hshr := exec_shr x y s
  have hshl := exec_shl x y s
  rw [shiftOperand_eq] at hshr hshl
  exact ⟨⟨encodedAs_8xyN x y 0x6 rfl, writes_result_then_flag hshr (toNat_shrResult _) (toNat_shrFlag _)⟩,
    ⟨encodedAs_8xyN x y 0xE rfl, writes_result_then_flag hshl (toNat_shlResult _) (toNat_shlFlag _)⟩⟩

/-! ### The random draw -/

theorem exec_rnd (x : RegIdx) (nn : Byte) (s : State) :
    exec (.rnd x nn) s = .next (rndWith (Config.randSeq s.draws) x nn s) := rfl

theorem readReg_rndWith (d : Byte) (x r : RegIdx) (nn : Byte) (s : State) :
    (rndWith d x nn s).readReg r = if r = x then d &&& nn else s.readReg r := by
  rw [rndWith, State.readReg_countDraw, State.readReg_writeReg]

theorem draws_rndWith (d : Byte) (x : RegIdx) (nn : Byte) (s : State) :
    (rndWith d x nn s).draws = s.draws + 1 := rfl

/-- No bit of a masked byte lies outside the mask. -/
theorem masked_and_not_mask (d nn : Byte) : d &&& nn &&& ~~~nn = 0 := by
  rw [BitVec.and_assoc, BitVec.and_not_self]
  exact BitVec.and_zero

theorem toNat_masked_le (d nn : Byte) : (d &&& nn).toNat ≤ nn.toNat := by
  rw [BitVec.toNat_and]
  exact Nat.and_le_right

/-- The count of draws is among the parts of Cxnn alone. -/
theorem draws_notMem_writtenParts {i : Instr} (hi : ∀ x nn, i ≠ .rnd x nn) : .draws ∉ writtenParts i := by
  cases i with
  | rnd x nn => exact absurd rfl (hi x nn)
  | _ => simp [writtenParts]

/-- Settles O15: `rndWith` for whatever byte is drawn, and the frame of every other instruction. -/
theorem randomWritesOneDrawMasked : Obligations.RandomWritesOneDrawMasked := by
  refine ⟨fun x nn s => ⟨encodedAs_of_toNat (toNat_formatXNN 0xC x nn), _, exec_rnd x nn s,
    fun r => readReg_rndWith _ x r nn s, ?_, ?_, draws_rndWith _ x nn s, onlyChanges_rndWith _ x nn s⟩,
    fun i s t h hi => (exec_effect h).onlyChanges .draws (draws_notMem_writtenParts hi)⟩
  · rw [readReg_rndWith, if_pos rfl, masked_and_not_mask]
  · rw [readReg_rndWith, if_pos rfl]
    exact toNat_masked_le _ nn

end Sys2Proof.Machine
end

section
/-! Pairs of instructions that undo each other: a return after a call (41_flow.md R121, R123), and a register load after
a register store (43_index_memory.md R155, R156). -/

namespace Sys2Proof.Machine

/-- Settles O19: the return pops the entry the call wrote, at the depth before the call. -/
theorem returnResumesAfterCall : Obligations.ReturnResumesAfterCall := by
  intro nnn s t u hsp hcall hstack hdepth
  obtain ⟨hfull, -⟩ | ⟨_, rfl⟩ := exec_call_cases hcall
  · rw [hfull] at hsp
    exact absurd hsp (by decide)
  · have hpop := pop_of_pos u s.sp.val hsp (congrArg Fin.val hdepth)
    refine ⟨_, exec_ret_of_pop hpop, ?_, rfl⟩
    simp only [State.setPc_pc, hstack, Vector.getElem_set_self]

/-- Settles O27: the load reads the bytes of the store, at the same address. -/
theorem storeThenLoadRestoresRegisters : Obligations.StoreThenLoadRestoresRegisters := by
  intro x s t u hmem hrange hstore hsame hI
  cases (exec_storeRegs_of_le hrange).symm.trans hstore
  have haddr : u.dataAddress = s.dataAddress := congrArg BitVec.toNat hI
  obtain ⟨-, hload, -⟩ := registerLoadReadsV0ToVx x u
  obtain ⟨v, hexec, hreg, hframe⟩ := hload (haddr ▸ hrange)
  refine ⟨v, hexec, (hframe .index (by simp)).trans hI, fun r hr => ?_, fun r hr => ?_⟩
  · rw [hreg, if_pos hr, hsame, haddr]
    exact read_writeBytes_regsUpTo hmem hrange hr
  · rw [hreg, if_neg (by omega)]

end Sys2Proof.Machine
end
